-- ==== Sys2Proof/Word.lean ====
section
/-! DEFINITION. The word types of LEDSCALE and the colour triple (00_scope.md R9, R12). -/

namespace Sys2Proof

/-- A 32-bit word: what one host access moves (20_memory.md R51). -/
abbrev Word := BitVec 32

/-- An 8-bit channel value, or one byte lane of a word (20_memory.md R54). -/
abbrev Byte := BitVec 8

/-- A colour triple (00_scope.md R12): three 8-bit channels. -/
structure Rgb where
  r : Byte
  g : Byte
  b : Byte
deriving DecidableEq, Repr

/-- The triple (0,0,0). -/
def Rgb.off : Rgb := ⟨0#8, 0#8, 0#8⟩

end Sys2Proof
end

