-- ==== Sys2Proof/Config.lean ====
section
/-! DEFINITION. The implementation parameters (00_scope.md R6, 92_eei_decisions.md). -/

namespace Sys2Proof

/-- `SCALE_ARITH` (00_scope.md R6, 41_scale_and_transmit.md R121): exact rationals, or IEEE 754 binary64. -/
inductive ScaleArith where
  | exact
  | binary64
deriving DecidableEq, Repr

/-- The parameters some rule reads (00_scope.md R6). They do not change while the block runs (10_state.md R41);
State carries them as a constant field, so that every statement covers every configuration (log 1, DESIGN CHOICE, safe). -/
structure Config where
  /-- `SCALE_ARITH` -/
  scaleArith : ScaleArith
  /-- `INIT_PCT`, a 32-bit two's-complement integer -/
  initPct : Word
  /-- `NUM_PIXELS`; only 1 is admitted (10_state.md R35) -/
  numPixels : Nat
deriving DecidableEq, Repr

/-- The default of every parameter (00_scope.md R6): EXACT, 20, 1. -/
def defaultConfig : Config := { scaleArith := .exact, initPct := 20#32, numPixels := 1 }

/-- `PIN_ID` (00_scope.md R6): passed to the transmit primitive, read by no rule (log 12). -/
opaque pinId : Nat

/-- `TICK_PERIOD` (00_scope.md R6): a positive duration in a unit the platform chooses, OPEN, read by no rule (log 12). -/
opaque tickPeriod : ℕ+

/-- `LEDSCALE_BASE` (20_memory.md R51): the block's base address in the host's map, OPEN, read by no rule (log 12). -/
opaque ledscaleBase : Nat

end Sys2Proof
end

