-- ==== Sys2Proof/Syntax.lean ====
section
/-! DEFINITION. The instructions: one constructor per row of spec/opcode_table.json (00_scope.md R11). -/

namespace Sys2Proof

/-- An instruction of LEDSCALE (00_scope.md R11): a command word written to CMD (30_encoding.md R70 to R72), an illegal
command word (R71, R77), or a register access (R75). -/
inductive Instr where
  /-- OFF, command word 0x0 (30_encoding.md R72). -/
  | off
  /-- BLUE, command word 0x1 (30_encoding.md R72). -/
  | blue
  /-- GREEN, command word 0x2 (30_encoding.md R72). -/
  | green
  /-- CYAN, command word 0x3 (30_encoding.md R72). -/
  | cyan
  /-- RED, command word 0x4 (30_encoding.md R72). -/
  | red
  /-- MAGENTA, command word 0x5 (30_encoding.md R72). -/
  | magenta
  /-- YELLOW, command word 0x6 (30_encoding.md R72). -/
  | yellow
  /-- WHITE, command word 0x7 (30_encoding.md R72). -/
  | white
  /-- SET, command word 0x8 (30_encoding.md R72). -/
  | set
  /-- BLINK, command word 0x9 (30_encoding.md R72). -/
  | blink
  /-- PULSE, command word 0xA (30_encoding.md R72). -/
  | pulse
  /-- ILLEGAL_OP_B: the command word 0xB (30_encoding.md R71). -/
  | illegalOpB
  /-- ILLEGAL_OP_C_F: the command word 0xC + lo (30_encoding.md R71). -/
  | illegalOpCF (lo : BitVec 2)
  /-- ILLEGAL_RSV: a command word with RSV = `rsv` (well-formed only if not 0) and OP = `op` (30_encoding.md R71). -/
  | illegalRsv (rsv : BitVec 28) (op : BitVec 4)
  /-- RD CMD, key 0x00 (30_encoding.md R75). -/
  | rdCmd
  /-- RD STATUS, key 0x01 (30_encoding.md R75). -/
  | rdStatus
  /-- RD BRIGHT, key 0x02 (30_encoding.md R75). -/
  | rdBright
  /-- RD CH_R, key 0x03 (30_encoding.md R75). -/
  | rdChR
  /-- RD CH_G, key 0x04 (30_encoding.md R75). -/
  | rdChG
  /-- RD CH_B, key 0x05 (30_encoding.md R75). -/
  | rdChB
  /-- RD DELAY, key 0x06 (30_encoding.md R75). -/
  | rdDelay
  /-- RD COUNT, key 0x07 (30_encoding.md R75). -/
  | rdCount
  /-- RD STEPS, key 0x08 (30_encoding.md R75). -/
  | rdSteps
  /-- RD IDX, key 0x09 (30_encoding.md R75). -/
  | rdIdx
  /-- RD WAITCNT, key 0x0A (30_encoding.md R75). -/
  | rdWaitcnt
  /-- RD W11, key 0x0B (30_encoding.md R75). -/
  | rdW11
  /-- RD W12, key 0x0C (30_encoding.md R75). -/
  | rdW12
  /-- RD W13, key 0x0D (30_encoding.md R75). -/
  | rdW13
  /-- RD W14, key 0x0E (30_encoding.md R75). -/
  | rdW14
  /-- RD W15, key 0x0F (30_encoding.md R75). -/
  | rdW15
  /-- WR CMD, key 0x10, with its data word (30_encoding.md R75). -/
  | wrCmd (data : Word)
  /-- WR STATUS, key 0x11, with its data word (30_encoding.md R75). -/
  | wrStatus (data : Word)
  /-- WR BRIGHT, key 0x12, with its data word (30_encoding.md R75). -/
  | wrBright (data : Word)
  /-- WR CH_R, key 0x13, with its data word (30_encoding.md R75). -/
  | wrChR (data : Word)
  /-- WR CH_G, key 0x14, with its data word (30_encoding.md R75). -/
  | wrChG (data : Word)
  /-- WR CH_B, key 0x15, with its data word (30_encoding.md R75). -/
  | wrChB (data : Word)
  /-- WR DELAY, key 0x16, with its data word (30_encoding.md R75). -/
  | wrDelay (data : Word)
  /-- WR COUNT, key 0x17, with its data word (30_encoding.md R75). -/
  | wrCount (data : Word)
  /-- WR STEPS, key 0x18, with its data word (30_encoding.md R75). -/
  | wrSteps (data : Word)
  /-- WR IDX, key 0x19, with its data word (30_encoding.md R75). -/
  | wrIdx (data : Word)
  /-- WR WAITCNT, key 0x1A, with its data word (30_encoding.md R75). -/
  | wrWaitcnt (data : Word)
  /-- WR W11, key 0x1B, with its data word (30_encoding.md R75). -/
  | wrW11 (data : Word)
  /-- WR W12, key 0x1C, with its data word (30_encoding.md R75). -/
  | wrW12 (data : Word)
  /-- WR W13, key 0x1D, with its data word (30_encoding.md R75). -/
  | wrW13 (data : Word)
  /-- WR W14, key 0x1E, with its data word (30_encoding.md R75). -/
  | wrW14 (data : Word)
  /-- WR W15, key 0x1F, with its data word (30_encoding.md R75). -/
  | wrW15 (data : Word)
deriving DecidableEq, Repr

end Sys2Proof
end

