-- ==== Sys2Proof/WellFormed.lean ====
section
/-! DEFINITION. Which instructions are well-formed. -/

namespace Sys2Proof

/-- Every instruction is well-formed but an ILLEGAL_RSV whose reserved field is 0: its word would be a word of another
row (30_encoding.md R71). -/
def Instr.wellFormed : Instr → Bool
  | .illegalRsv rsv _ => rsv != 0#28
  | .off => true
  | .blue => true
  | .green => true
  | .cyan => true
  | .red => true
  | .magenta => true
  | .yellow => true
  | .white => true
  | .set => true
  | .blink => true
  | .pulse => true
  | .illegalOpB => true
  | .illegalOpCF _ => true
  | .rdCmd => true
  | .rdStatus => true
  | .rdBright => true
  | .rdChR => true
  | .rdChG => true
  | .rdChB => true
  | .rdDelay => true
  | .rdCount => true
  | .rdSteps => true
  | .rdIdx => true
  | .rdWaitcnt => true
  | .rdW11 => true
  | .rdW12 => true
  | .rdW13 => true
  | .rdW14 => true
  | .rdW15 => true
  | .wrCmd _ => true
  | .wrStatus _ => true
  | .wrBright _ => true
  | .wrChR _ => true
  | .wrChG _ => true
  | .wrChB _ => true
  | .wrDelay _ => true
  | .wrCount _ => true
  | .wrSteps _ => true
  | .wrIdx _ => true
  | .wrWaitcnt _ => true
  | .wrW11 _ => true
  | .wrW12 _ => true
  | .wrW13 _ => true
  | .wrW14 _ => true
  | .wrW15 _ => true

end Sys2Proof
end

