-- ==== Sys2Proof/Decode.lean ====
section
/-! DEFINITION. The decoder and the encoder (30_encoding.md). The key and the command word are the spec's; how they are
laid out in bytes for this file's byte decoder is log 6 (DESIGN CHOICE). -/

namespace Sys2Proof

/-- The four byte lanes of a word, lane 0 first (20_memory.md R54: byte k is bits [8k+7:8k]). -/
def wordBytes (w : Word) : List Byte :=
  [w.extractLsb' 0 8, w.extractLsb' 8 8, w.extractLsb' 16 8, w.extractLsb' 24 8]

/-- The word whose byte lanes are b0 (lane 0) to b3 (20_memory.md R54). -/
def bytesWord (b0 b1 b2 b3 : Byte) : Word :=
  BitVec.ofNat 32 (b0.toNat + 2 ^ 8 * b1.toNat + 2 ^ 16 * b2.toNat + 2 ^ 24 * b3.toNat)

/-- What a command word decodes to (30_encoding.md R71). -/
inductive Command where
  | illegal
  | fixed (kr kg kb : Bool)
  | set
  | blink
  | pulse
deriving DecidableEq, Repr

/-- 30_encoding.md R71, total on all 2^32 words. OP is w[3:0], RSV is w[31:4] (R70). -/
def decodeCommand (w : Word) : Command :=
  if w.extractLsb' 4 28 ≠ 0#28 then .illegal
  else if w.getLsbD 3 = false then .fixed (w.getLsbD 2) (w.getLsbD 1) (w.getLsbD 0)
  else if w.extractLsb' 0 4 = 0x8#4 then .set
  else if w.extractLsb' 0 4 = 0x9#4 then .blink
  else if w.extractLsb' 0 4 = 0xA#4 then .pulse
  else .illegal

/-- The row of spec/opcode_table.json a command word belongs to (30_encoding.md R72; R77 for the illegal words). -/
def commandRow (w : Word) : Instr :=
  if w.extractLsb' 4 28 ≠ 0#28 then .illegalRsv (w.extractLsb' 4 28) (w.extractLsb' 0 4)
  else
    match (w.extractLsb' 0 4).toNat with
    | 0x0 => .off
    | 0x1 => .blue
    | 0x2 => .green
    | 0x3 => .cyan
    | 0x4 => .red
    | 0x5 => .magenta
    | 0x6 => .yellow
    | 0x7 => .white
    | 0x8 => .set
    | 0x9 => .blink
    | 0xA => .pulse
    | 0xB => .illegalOpB
    | _ => .illegalOpCF (w.extractLsb' 0 2)

/-- The read of slot WIDX (30_encoding.md R75, keys 0x00 to 0x0F). -/
def readRow (widx : BitVec 4) : Instr :=
  match widx.toNat with
  | 0 => .rdCmd
  | 1 => .rdStatus
  | 2 => .rdBright
  | 3 => .rdChR
  | 4 => .rdChG
  | 5 => .rdChB
  | 6 => .rdDelay
  | 7 => .rdCount
  | 8 => .rdSteps
  | 9 => .rdIdx
  | 10 => .rdWaitcnt
  | 11 => .rdW11
  | 12 => .rdW12
  | 13 => .rdW13
  | 14 => .rdW14
  | _ => .rdW15

/-- The write of `data` to slot WIDX (30_encoding.md R75, keys 0x10 to 0x1F). -/
def writeRow (widx : BitVec 4) (data : Word) : Instr :=
  match widx.toNat with
  | 0 => .wrCmd data
  | 1 => .wrStatus data
  | 2 => .wrBright data
  | 3 => .wrChR data
  | 4 => .wrChG data
  | 5 => .wrChB data
  | 6 => .wrDelay data
  | 7 => .wrCount data
  | 8 => .wrSteps data
  | 9 => .wrIdx data
  | 10 => .wrWaitcnt data
  | 11 => .wrW11 data
  | 12 => .wrW12 data
  | 13 => .wrW13 data
  | 14 => .wrW14 data
  | _ => .wrW15 data

/-- A host access (30_encoding.md R75): `KEY = {WE, WIDX}` and the data word. Total: all 32 keys are defined. A read
carries no write data, so its data word is not looked at. -/
def decodeAccess (key : BitVec 5) (data : Word) : Instr :=
  if key.getLsbD 4 then writeRow (key.extractLsb' 0 4) data else readRow (key.extractLsb' 0 4)

/-- Why the byte decoder rejects its bytes. -/
inductive DecodeError where
  /-- neither 4 bytes (a command word) nor 5 bytes (a key byte and a data word) -/
  | badLength
  /-- a key byte above 0x1F: the access key has 5 bits (30_encoding.md R75) -/
  | keyTooWide
deriving DecidableEq, Repr

/-- The byte decoder, total on any bytes. Four bytes are a command word (30_encoding.md R70, R78); five are a key byte and
a data word (R75); words are little-endian (20_memory.md R54). The layout is log 6. -/
def decode : List Byte → Except DecodeError Instr
  | [b0, b1, b2, b3] => .ok (commandRow (bytesWord b0 b1 b2 b3))
  | [k, b0, b1, b2, b3] =>
    if k.toNat < 32 then .ok (decodeAccess (k.setWidth 5) (bytesWord b0 b1 b2 b3)) else .error .keyTooWide
  | _ => .error .badLength

/-- The command word of a command row (30_encoding.md R72; R77 for the illegal rows); none for an access. -/
def Instr.commandWord? : Instr → Option Word
  | .off => some 0x0#32
  | .blue => some 0x1#32
  | .green => some 0x2#32
  | .cyan => some 0x3#32
  | .red => some 0x4#32
  | .magenta => some 0x5#32
  | .yellow => some 0x6#32
  | .white => some 0x7#32
  | .set => some 0x8#32
  | .blink => some 0x9#32
  | .pulse => some 0xA#32
  | .illegalOpB => some 0xB#32
  | .illegalOpCF lo => some (0x3#30 ++ lo)
  | .illegalRsv rsv op => some (rsv ++ op)
  | .rdCmd => none
  | .rdStatus => none
  | .rdBright => none
  | .rdChR => none
  | .rdChG => none
  | .rdChB => none
  | .rdDelay => none
  | .rdCount => none
  | .rdSteps => none
  | .rdIdx => none
  | .rdWaitcnt => none
  | .rdW11 => none
  | .rdW12 => none
  | .rdW13 => none
  | .rdW14 => none
  | .rdW15 => none
  | .wrCmd _ => none
  | .wrStatus _ => none
  | .wrBright _ => none
  | .wrChR _ => none
  | .wrChG _ => none
  | .wrChB _ => none
  | .wrDelay _ => none
  | .wrCount _ => none
  | .wrSteps _ => none
  | .wrIdx _ => none
  | .wrWaitcnt _ => none
  | .wrW11 _ => none
  | .wrW12 _ => none
  | .wrW13 _ => none
  | .wrW14 _ => none
  | .wrW15 _ => none

/-- The access key and data word of an access (30_encoding.md R75); a read carries no data (zeros). A command is a write
of its word to CMD, key 0x10 (R70). -/
def Instr.access : Instr → BitVec 5 × Word
  | .off => (0x10#5, 0x0#32)
  | .blue => (0x10#5, 0x1#32)
  | .green => (0x10#5, 0x2#32)
  | .cyan => (0x10#5, 0x3#32)
  | .red => (0x10#5, 0x4#32)
  | .magenta => (0x10#5, 0x5#32)
  | .yellow => (0x10#5, 0x6#32)
  | .white => (0x10#5, 0x7#32)
  | .set => (0x10#5, 0x8#32)
  | .blink => (0x10#5, 0x9#32)
  | .pulse => (0x10#5, 0xA#32)
  | .illegalOpB => (0x10#5, 0xB#32)
  | .illegalOpCF lo => (0x10#5, 0x3#30 ++ lo)
  | .illegalRsv rsv op => (0x10#5, rsv ++ op)
  | .rdCmd => (0x00#5, 0#32)
  | .rdStatus => (0x01#5, 0#32)
  | .rdBright => (0x02#5, 0#32)
  | .rdChR => (0x03#5, 0#32)
  | .rdChG => (0x04#5, 0#32)
  | .rdChB => (0x05#5, 0#32)
  | .rdDelay => (0x06#5, 0#32)
  | .rdCount => (0x07#5, 0#32)
  | .rdSteps => (0x08#5, 0#32)
  | .rdIdx => (0x09#5, 0#32)
  | .rdWaitcnt => (0x0A#5, 0#32)
  | .rdW11 => (0x0B#5, 0#32)
  | .rdW12 => (0x0C#5, 0#32)
  | .rdW13 => (0x0D#5, 0#32)
  | .rdW14 => (0x0E#5, 0#32)
  | .rdW15 => (0x0F#5, 0#32)
  | .wrCmd data => (0x10#5, data)
  | .wrStatus data => (0x11#5, data)
  | .wrBright data => (0x12#5, data)
  | .wrChR data => (0x13#5, data)
  | .wrChG data => (0x14#5, data)
  | .wrChB data => (0x15#5, data)
  | .wrDelay data => (0x16#5, data)
  | .wrCount data => (0x17#5, data)
  | .wrSteps data => (0x18#5, data)
  | .wrIdx data => (0x19#5, data)
  | .wrWaitcnt data => (0x1A#5, data)
  | .wrW11 data => (0x1B#5, data)
  | .wrW12 data => (0x1C#5, data)
  | .wrW13 data => (0x1D#5, data)
  | .wrW14 data => (0x1E#5, data)
  | .wrW15 data => (0x1F#5, data)

/-- The encoder: a command's 4 bytes, or an access's key byte and 4 data bytes. -/
def encode (i : Instr) : List Byte :=
  match i.commandWord? with
  | some w => wordBytes w
  | none => (i.access.1.setWidth 8 : Byte) :: wordBytes i.access.2

/-- The bytes of a row of spec/opcode_table.json given as `nbits` bits `w`, bit 0 the least significant of the first word.
A 32-bit row is a command word. A row of at most 8 bits is an access key; its data word, which the table gives no bits, is
zeros. 40 bits are a key byte and a data word. Other lengths are no row's: no bytes, which `decode` rejects. -/
def tableBytes (nbits w : Nat) : List Byte :=
  if nbits = 32 then wordBytes (BitVec.ofNat 32 w)
  else if nbits ≤ 8 ∨ nbits = 40 then BitVec.ofNat 8 w :: wordBytes (BitVec.ofNat 32 (w / 256))
  else []

/-- The instruction the decoder reads from a table row's bits; none where it refuses, or where `w` has a bit above `nbits`. -/
def decodeTableWord (nbits w : Nat) : Option Instr :=
  if w < 2 ^ nbits then
    match decode (tableBytes nbits w) with
    | .ok i => some i
    | .error _ => none
  else none

end Sys2Proof
end

