-- ==== Sys2Proof/Machine/Operands.lean ====
section
/-! DEFINITION. Operand arithmetic: the clamps, the scaler and the ramp scaler (30_encoding.md R76,
41_scale_and_transmit.md R120 to R131, 45_pulse.md R192). -/

namespace Sys2Proof.Machine

/-- `clamp(v, lo, hi)` (00_scope.md R10). -/
def clamp (v lo hi : Int) : Int := if v < lo then lo else if hi < v then hi else v

/-- `clampC` (41_scale_and_transmit.md R120): a channel word, read as two's complement, clamped to 0..255. -/
def clampC (v : Word) : Byte := BitVec.ofInt 8 (clamp v.toInt 0 255)

/-- The percent a BRIGHT write or INIT_PCT stores (40_brightness_and_registers.md R91, 70_reset_and_hazards.md R240). -/
def clampPercent (w : Word) : BitVec 7 := BitVec.ofInt 7 (clamp w.toInt 0 100)

/-- The ramp ceiling (45_pulse.md R192): BRIGHT.P if nonzero, else 100. -/
def rampCeiling (p : BitVec 7) : BitVec 7 := if p = 0#7 then 100#7 else p

/-- One channel of a fixed colour (30_encoding.md R73): 255 if enabled, else 0. -/
def fixedChannel (k : Bool) : Byte := if k then 255#8 else 0#8

/-- The requested triple of a fixed colour (30_encoding.md R73, 42_fixed_colors.md R140). -/
def fixedTriple (kr kg kb : Bool) : Rgb := ⟨fixedChannel kr, fixedChannel kg, fixedChannel kb⟩

/-- A non-negative binary64 value below 2^53, as `man / 2^scale` (log 10). -/
structure Binary64 where
  man : Nat
  scale : Nat
deriving DecidableEq, Repr

/-- How far `n / d` is shifted left so that its integer part has 53 bits, the precision of binary64; at most 1074, its
least exponent (log 10). -/
def rne64Scale (n d : Nat) : Nat :=
  let k := 52 + d.log2 - n.log2
  min (if 2 ^ 52 * d ≤ n * 2 ^ k then k else k + 1) 1074

/-- `n / d` rounded to the nearest integer, ties to even. -/
def roundEven (n d : Nat) : Nat :=
  let q := n / d
  let r := n % d
  if 2 * r < d then q else if d < 2 * r then q + 1 else q + q % 2

/-- `RNE64(n / d)` (00_scope.md R10) for 0 ≤ n/d < 2^53, which every use of the scaler meets (log 10, PRESUMED: the
meaning of binary64 is general knowledge, 93_implementation_defined.md G1). -/
def rne64 (n d : Nat) : Binary64 :=
  let k := rne64Scale n d
  ⟨roundEven (n * 2 ^ k) d, k⟩

/-- The floor of a binary64 value. -/
def floor64 (x : Binary64) : Nat := x.man / 2 ^ x.scale

/-- `RNE64(x * y)` of two binary64 values. -/
def mul64 (x y : Binary64) : Binary64 := rne64 (x.man * y.man) (2 ^ (x.scale + y.scale))

/-- `RNE64(c * x)` of an integer and a binary64 value. -/
def natMul64 (c : Nat) (x : Binary64) : Binary64 := rne64 (c * x.man) (2 ^ x.scale)

/-- `scale(c, P)` as a number (41_scale_and_transmit.md R121, R122). -/
def scaleNat (a : ScaleArith) (c p : Nat) : Nat :=
  match a with
  | .exact => c * p / 100
  | .binary64 => floor64 (natMul64 c (rne64 p 100))

/-- `rampScale(c, Pm, i, S)` as a number, in the source's order of evaluation (41_scale_and_transmit.md R123). -/
def rampScaleNat (a : ScaleArith) (c pm i s : Nat) : Nat :=
  match a with
  | .exact => c * pm * i / (100 * s)
  | .binary64 => floor64 (natMul64 c (mul64 (rne64 pm 100) (rne64 i s)))

/-- `scale(c, P)` (41_scale_and_transmit.md R121). It fits 8 bits for P in 0..100 (R124); see log 11 for larger P. -/
def scale (a : ScaleArith) (c : Byte) (p : BitVec 7) : Byte := BitVec.ofNat 8 (scaleNat a c.toNat p.toNat)

/-- `rampScale(c, Pm, i, S)` (41_scale_and_transmit.md R123). It fits 8 bits on the rule's domain (R124); see log 11. -/
def rampScale (a : ScaleArith) (c : Byte) (pm : BitVec 7) (i : BitVec 32) (s : BitVec 16) : Byte :=
  BitVec.ofNat 8 (rampScaleNat a c.toNat pm.toNat i.toNat s.toNat)

/-- `scale3` (41_scale_and_transmit.md R129). -/
def scale3 (a : ScaleArith) (c : Rgb) (p : BitVec 7) : Rgb := ⟨scale a c.r p, scale a c.g p, scale a c.b p⟩

/-- `rampScale3` (41_scale_and_transmit.md R129). -/
def rampScale3 (a : ScaleArith) (c : Rgb) (pm : BitVec 7) (i : BitVec 32) (s : BitVec 16) : Rgb :=
  ⟨rampScale a c.r pm i s, rampScale a c.g pm i s, rampScale a c.b pm i s⟩

/-- The packed triple of a transmit request (20_memory.md R54): R in [23:16], G in [15:8], B in [7:0]. -/
def packRgb (c : Rgb) : BitVec 24 := (c.r ++ c.g ++ c.b : BitVec (8 + 8 + 8))

end Sys2Proof.Machine
end

