-- ==== Sys2Proof/Machine/State.lean ====
section
/-! DEFINITION. The state of LEDSCALE (10_state.md R20, R40), the events (00_scope.md R7) and the stops. -/

namespace Sys2Proof.Machine

/-- `STATE`, the phase of the effect timer (10_state.md R31). -/
inductive Phase where
  | idle
  | single
  | blinkOn
  | blinkOff
  | rampUp
  | rampDown
  | finalOff
  | resetOff
deriving DecidableEq, Repr

/-- The conditions (60_exceptions.md R214), each recorded in the sticky bit of its name. -/
inductive Condition where
  /-- TransmitFailure, code 8, TXFAIL (R211) -/
  | transmitFailure
  /-- InvalidArgument, code 9, INVARG (R210) -/
  | invalidArgument
  /-- Busy, code 10, BUSYERR (R212) -/
  | busy
  /-- IllegalCommand, code 11, ILLCMD (R213) -/
  | illegalCommand
deriving DecidableEq, Repr

/-- The result of a transmit request in TXLOG (10_state.md R40). -/
inductive TxResult where
  | pending
  | ok
  | fail
deriving DecidableEq, Repr

/-- One entry of TXLOG (10_state.md R40). -/
structure TxEntry where
  rgb : Rgb
  result : TxResult
deriving DecidableEq, Repr

/-- `LED` (10_state.md R40): the physical LED as far as the block can know it. -/
inductive Led where
  | unknown
  | known (rgb : Rgb)
deriving DecidableEq, Repr

/-- The size of an access a byte-addressing host bridge presents (20_memory.md R55). -/
inductive AccessSize where
  | byte
  | half
  | word
deriving DecidableEq, Repr

/-- An event (00_scope.md R7). -/
inductive Event where
  /-- a host access: the access key and its data word (30_encoding.md R75) -/
  | access (key : BitVec 5) (data : Word)
  /-- an access of a host that addresses the block by bytes: direction, byte offset from LEDSCALE_BASE, size, data
  (20_memory.md R51, R55; log 8) -/
  | byteAccess (we : Bool) (offset : BitVec 6) (size : AccessSize) (data : Word)
  /-- `Tick` (43_effect_timer.md R163) -/
  | tick
  /-- `TxResp(OK)` (41_scale_and_transmit.md R127) -/
  | txOk
  /-- `TxResp(FAIL)` (60_exceptions.md R211) -/
  | txFail
  /-- `Reset` (70_reset_and_hazards.md R240) -/
  | reset
deriving DecidableEq, Repr

/-- Why the machine stops with a fault. -/
inductive Fault where
  /-- Raised by a `TxResp` event while TXP = 0: the transmit primitive "has no response step while TXP = 0"
  (41_scale_and_transmit.md R127), so such an event does not exist. Safe (log 4). -/
  | noTransmitOutstanding
deriving DecidableEq, Repr

/-- Why the model refuses. -/
inductive Refusal where
  /-- Raised by an arm of exec whose instruction has no meaning yet. Safe. No arm raises it. -/
  | notModelled (mnemonic : String)
  /-- Raised by a byte, halfword or misaligned access of a host bridge (20_memory.md R55, "REFUSED: sub-word or misaligned
  access"). Safe (log 8). -/
  | subWordOrMisaligned
  /-- Raised by step in a configuration with NUM_PIXELS other than 1 (10_state.md R35). Safe (log 13). -/
  | pixelCount
  /-- Raised by the host-script layer, never by step, for SETBRIGHT of a percent that is no 32-bit integer
  (93_implementation_defined.md U5). Safe (log 14). -/
  | percentNotInteger
deriving DecidableEq, Repr

/-- The state: the record of 10_state.md R20, the observation records of R40, and the model's own `cfg`, `inputs` and
`rdlog`. -/
structure State where
  /-- the configuration parameters, constant (log 1) -/
  cfg : Config
  /-- the events still to come, oldest first (log 2) -/
  inputs : List Event
  /-- the words returned to the host by bus reads, with their slots, in order (log 3) -/
  rdlog : List (BitVec 4 × Word)
  /-- `BRIGHT.P` -/
  brightP : BitVec 7
  /-- `CH_R` -/
  chR : Word
  /-- `CH_G` -/
  chG : Word
  /-- `CH_B` -/
  chB : Word
  /-- `DELAY` -/
  delay : Word
  /-- `COUNT` -/
  count : Word
  /-- `STEPS` -/
  steps : BitVec 16
  /-- `STATUS.TXFAIL` -/
  txfail : Bool
  /-- `STATUS.INVARG` -/
  invarg : Bool
  /-- `STATUS.BUSYERR` -/
  busyerr : Bool
  /-- `STATUS.ILLCMD` -/
  illcmd : Bool
  /-- `STATE` -/
  phase : Phase
  /-- `TXP` -/
  txp : Bool
  /-- `IDX` -/
  idx : BitVec 32
  /-- `WAITCNT` -/
  waitcnt : BitVec 32
  /-- `LC_R` -/
  lcR : Byte
  /-- `LC_G` -/
  lcG : Byte
  /-- `LC_B` -/
  lcB : Byte
  /-- `LP` -/
  lp : BitVec 7
  /-- `LPM` -/
  lpm : BitVec 7
  /-- `LD` -/
  ld : BitVec 32
  /-- `LN` -/
  ln : BitVec 32
  /-- `LS` -/
  ls : BitVec 16
  /-- `SLOT` -/
  slot : Rgb
  /-- `TXLOG`, observation (R40) -/
  txlog : List TxEntry
  /-- `LED`, observation (R40) -/
  led : Led
deriving DecidableEq, Repr

/-- The block right after the first `Reset` under a configuration, with the events `inputs` to come: the values of
70_reset_and_hazards.md R240 and the reset-off of R241. TXLOG holds the reset-off's entry alone (95_test_vectors.md P1). -/
def State.powerUp (cfg : Config) (inputs : List Event) : State :=
  { cfg := cfg
    inputs := inputs
    rdlog := []
    brightP := clampPercent cfg.initPct
    chR := 0#32
    chG := 0#32
    chB := 0#32
    delay := 0#32
    count := 0#32
    steps := 0#16
    txfail := false
    invarg := false
    busyerr := false
    illcmd := false
    phase := .resetOff
    txp := true
    idx := 0#32
    waitcnt := 0#32
    lcR := 0#8
    lcG := 0#8
    lcB := 0#8
    lp := clampPercent cfg.initPct
    lpm := 100#7
    ld := 0#32
    ln := 0#32
    ls := 0#16
    slot := Rgb.off
    txlog := [⟨Rgb.off, .pending⟩]
    led := .unknown }

/-- The machine right after reset (70_reset_and_hazards.md R240, R241), in the default configuration, no event to come. -/
def State.reset : State := State.powerUp defaultConfig []

end Sys2Proof.Machine
end

