-- ==== Sys2Proof/Machine/Flags.lean ====
section
/-! DEFINITION. The STATUS word and its fields (10_state.md R28 to R31, 40_brightness_and_registers.md R92, R93). -/

namespace Sys2Proof.Machine

/-- The code of a phase (10_state.md R31). -/
def phaseCode : Phase → BitVec 3
  | .idle => 0
  | .single => 1
  | .blinkOn => 2
  | .blinkOff => 3
  | .rampUp => 4
  | .rampDown => 5
  | .finalOff => 6
  | .resetOff => 7

/-- The waiting phases (10_state.md R31). -/
def waiting : Phase → Bool
  | .blinkOn | .blinkOff | .rampUp | .rampDown => true
  | .idle | .single | .finalOff | .resetOff => false

/-- `BUSY` (10_state.md R30). -/
def busy (s : State) : Bool := s.phase != .idle

/-- The code of a condition, its bit number in STATUS (60_exceptions.md R214). -/
def conditionCode : Condition → Nat
  | .transmitFailure => 8
  | .invalidArgument => 9
  | .busy => 10
  | .illegalCommand => 11

/-- The sticky bit of a condition (60_exceptions.md R214). -/
def sticky (c : Condition) (s : State) : Bool :=
  match c with
  | .transmitFailure => s.txfail
  | .invalidArgument => s.invarg
  | .busy => s.busyerr
  | .illegalCommand => s.illcmd

/-- `STATUS.ARITH` (40_brightness_and_registers.md R92). -/
def arithBit (s : State) : Bool := s.cfg.scaleArith == .binary64

/-- The word RD STATUS returns (40_brightness_and_registers.md R92). -/
def statusWord (s : State) : Word :=
  (0#15 ++ BitVec.ofBool (arithBit s) ++ 0#4 ++ BitVec.ofBool s.illcmd ++ BitVec.ofBool s.busyerr ++
    BitVec.ofBool s.invarg ++ BitVec.ofBool s.txfail ++ 0#3 ++ BitVec.ofBool s.txp ++ phaseCode s.phase ++
    BitVec.ofBool (busy s) : BitVec (15 + 1 + 4 + 1 + 1 + 1 + 1 + 3 + 1 + 3 + 1))

end Sys2Proof.Machine
end

