-- ==== Sys2Proof/Machine/Ops.lean ====
section
/-! DEFINITION. The operations the meanings share: recording and clearing a condition, the busy guard, the transmit
request, the phase steps, the register space, and reset. -/

namespace Sys2Proof.Machine

/-- `raise <Condition>` (00_scope.md R10, 60_exceptions.md R210 to R213): the sticky bit of the condition is set, nothing
else changes. There is no trap entry: no state is saved, no mode or vector exists (R219). -/
def raiseCondition (c : Condition) (s : State) : State :=
  { s with
    txfail := s.txfail || c == .transmitFailure
    invarg := s.invarg || c == .invalidArgument
    busyerr := s.busyerr || c == .busy
    illcmd := s.illcmd || c == .illegalCommand }

/-- The return side (60_exceptions.md R220): the host clears conditions by writing 1 to their STATUS bits; every other
bit of `w` is ignored (40_brightness_and_registers.md R93). -/
def clearSticky (w : Word) (s : State) : State :=
  { s with
    txfail := s.txfail && !w.getLsbD 8
    invarg := s.invarg && !w.getLsbD 9
    busyerr := s.busyerr && !w.getLsbD 10
    illcmd := s.illcmd && !w.getLsbD 11 }

/-- Busy serialisation (20_memory.md R57): while not IDLE the write is dropped and only Busy is raised. -/
def unlessBusy (f : State → State) (s : State) : State :=
  if s.phase = .idle then f s else raiseCondition .busy s

/-- `TxIssue` (41_scale_and_transmit.md R126). -/
def txIssue (c : Rgb) (s : State) : State :=
  { s with slot := c, txp := true, txlog := s.txlog ++ [⟨c, .pending⟩] }

/-- `Enter` (43_effect_timer.md R167). SET, the fixed colours and reset enter their phase by the same steps
(41_scale_and_transmit.md R128, 42_fixed_colors.md R140, 70_reset_and_hazards.md R241). -/
def enter (phase : Phase) (k : BitVec 32) (c : Rgb) (s : State) : State :=
  txIssue c { s with phase := phase, idx := k, waitcnt := 0#32 }

/-- `Finish` (43_effect_timer.md R165). -/
def finish (s : State) : State := { s with phase := .idle, idx := 0#32, waitcnt := 0#32 }

/-- The last entry of TXLOG gets a result (41_scale_and_transmit.md R127, 60_exceptions.md R211). -/
def answerLast (r : TxResult) : List TxEntry → List TxEntry
  | [] => []
  | [e] => [{ e with result := r }]
  | e :: e' :: es => e :: answerLast r (e' :: es)

/-- The triple of the outstanding transmit request, packed (20_memory.md R54, 41_scale_and_transmit.md R126). -/
def txRgb (s : State) : BitVec 24 := packRgb s.slot

/-- The requested colour of SET, BLINK and PULSE (30_encoding.md R76). -/
def requestedColour (s : State) : Rgb := ⟨clampC s.chR, clampC s.chG, clampC s.chB⟩

/-- The latched colour (10_state.md R24). -/
def latchedColour (s : State) : Rgb := ⟨s.lcR, s.lcG, s.lcB⟩

/-- The common path of the fixed colours (42_fixed_colors.md R140). -/
def startFixed (kr kg kb : Bool) (s : State) : State :=
  enter .single 0#32 (scale3 s.cfg.scaleArith (fixedTriple kr kg kb) s.brightP) s

/-- The word a read of slot WIDX returns (20_memory.md R52; 40_brightness_and_registers.md R90, R92, R94, R100 to R102). -/
def slotWord (widx : BitVec 4) (s : State) : Word :=
  match widx.toNat with
  | 1 => statusWord s
  | 2 => s.brightP.setWidth 32
  | 3 => s.chR
  | 4 => s.chG
  | 5 => s.chB
  | 6 => s.delay
  | 7 => s.count
  | 8 => s.steps.setWidth 32
  | 9 => s.idx
  | 10 => s.waitcnt
  | _ => 0#32

/-- Byte lane k of slot WIDX (20_memory.md R54). -/
def slotByte (widx : BitVec 4) (k : Nat) (s : State) : Byte := (slotWord widx s).extractLsb' (8 * k) 8

/-- A bus read returns `v` from slot WIDX to the host (00_scope.md R10; log 3). Nothing else changes (20_memory.md R56). -/
def returnWord (widx : BitVec 4) (v : Word) (s : State) : State := { s with rdlog := s.rdlog ++ [(widx, v)] }

/-- The whole `Reset` event (70_reset_and_hazards.md R240, then R241). TXLOG is kept and gains the reset-off's entry; an
entry still PENDING stays so (R242). The events to come and the words already read are not the block's (log 9). -/
def resetBlock (s : State) : State :=
  enter .resetOff 0#32 Rgb.off
    { s with
      brightP := clampPercent s.cfg.initPct
      chR := 0#32
      chG := 0#32
      chB := 0#32
      delay := 0#32
      count := 0#32
      steps := 0#16
      txfail := false
      invarg := false
      busyerr := false
      illcmd := false
      idx := 0#32
      waitcnt := 0#32
      lcR := 0#8
      lcG := 0#8
      lcB := 0#8
      lp := clampPercent s.cfg.initPct
      lpm := 100#7
      ld := 0#32
      ln := 0#32
      ls := 0#16
      led := .unknown }

end Sys2Proof.Machine
end

