-- ==== Sys2Proof/Machine/Blink.lean ====
section
/-! DEFINITION. The blink effect (44_blink.md). -/

namespace Sys2Proof.Machine

/-- The operands BLINK latches (44_blink.md R180, 10_state.md R24). -/
def latchBlink (s : State) : State :=
  { s with
    lcR := clampC s.chR
    lcG := clampC s.chG
    lcB := clampC s.chB
    lp := s.brightP
    ld := s.delay
    ln := s.count }

/-- The scaled colour of the running blink (44_blink.md R180, R183). -/
def blinkColour (s : State) : Rgb := scale3 s.cfg.scaleArith (latchedColour s) s.lp

/-- The off triple of a running effect: (0,0,0) scaled by LP (44_blink.md R182, 45_pulse.md R195). -/
def scaledOff (s : State) : Rgb := scale3 s.cfg.scaleArith Rgb.off s.lp

/-- The accept path of BLINK, with the block idle (44_blink.md R180). With LN = 0 it latches and stays IDLE. -/
def startBlink (s : State) : State :=
  let s' := latchBlink s
  if s'.ln = 0#32 then s' else enter .blinkOn 0#32 (blinkColour s') s'

/-- BLINK (44_blink.md R180). -/
def execBlink (s : State) : Host.Outcome State Fault Refusal := .next (unlessBusy startBlink s)

/-- Advance from BLINK_ON(k) (44_blink.md R182). -/
def advanceBlinkOn (s : State) : State := enter .blinkOff s.idx (scaledOff s) s

/-- Advance from BLINK_OFF(k) (44_blink.md R183). -/
def advanceBlinkOff (s : State) : State :=
  if s.idx.toNat + 1 < s.ln.toNat then enter .blinkOn (s.idx + 1#32) (blinkColour s) s else finish s

end Sys2Proof.Machine
end

