-- ==== Sys2Proof/Machine/FixedColors.lean ====
section
/-! DEFINITION. The fixed colours (42_fixed_colors.md). Each is the write of its word to CMD
(40_brightness_and_registers.md R99): dropped while busy, else the common path of R140. -/

namespace Sys2Proof.Machine

/-- OFF (42_fixed_colors.md R141). -/
def execOff (s : State) : Host.Outcome State Fault Refusal := .next (unlessBusy (startFixed false false false) s)

/-- BLUE (42_fixed_colors.md R142). -/
def execBlue (s : State) : Host.Outcome State Fault Refusal := .next (unlessBusy (startFixed false false true) s)

/-- GREEN (42_fixed_colors.md R143). -/
def execGreen (s : State) : Host.Outcome State Fault Refusal := .next (unlessBusy (startFixed false true false) s)

/-- CYAN (42_fixed_colors.md R144). -/
def execCyan (s : State) : Host.Outcome State Fault Refusal := .next (unlessBusy (startFixed false true true) s)

/-- RED (42_fixed_colors.md R145). -/
def execRed (s : State) : Host.Outcome State Fault Refusal := .next (unlessBusy (startFixed true false false) s)

/-- MAGENTA (42_fixed_colors.md R146). -/
def execMagenta (s : State) : Host.Outcome State Fault Refusal := .next (unlessBusy (startFixed true false true) s)

/-- YELLOW (42_fixed_colors.md R147). -/
def execYellow (s : State) : Host.Outcome State Fault Refusal := .next (unlessBusy (startFixed true true false) s)

/-- WHITE (42_fixed_colors.md R148). -/
def execWhite (s : State) : Host.Outcome State Fault Refusal := .next (unlessBusy (startFixed true true true) s)

end Sys2Proof.Machine
end

