-- ==== Sys2Proof/Machine/Illegal.lean ====
section
/-! DEFINITION. The illegal command words (30_encoding.md R71, R77; 60_exceptions.md R213): dropped while busy
(60_exceptions.md R216), else IllegalCommand and nothing else. -/

namespace Sys2Proof.Machine

/-- The accept path of an illegal word, with the block idle (60_exceptions.md R213). -/
def startIllegal (s : State) : State := raiseCondition .illegalCommand s

/-- ILLEGAL_OP_B: the word 0xB (60_exceptions.md R213). -/
def execIllegalOpB (s : State) : Host.Outcome State Fault Refusal := .next (unlessBusy startIllegal s)

/-- ILLEGAL_OP_C_F: the words 0xC to 0xF; the word is not kept (60_exceptions.md R213). -/
def execIllegalOpCF (_lo : BitVec 2) (s : State) : Host.Outcome State Fault Refusal := .next (unlessBusy startIllegal s)

/-- ILLEGAL_RSV: a word with w[31:4] not 0, whatever OP holds; the word is not kept (60_exceptions.md R213). -/
def execIllegalRsv (_rsv : BitVec 28) (_op : BitVec 4) (s : State) : Host.Outcome State Fault Refusal :=
  .next (unlessBusy startIllegal s)

end Sys2Proof.Machine
end

