-- ==== Sys2Proof/Machine/Pulse.lean ====
section
/-! DEFINITION. The pulse effect (45_pulse.md). -/

namespace Sys2Proof.Machine

/-- The operands PULSE latches (45_pulse.md R190, 10_state.md R24). -/
def latchPulse (s : State) : State :=
  { s with
    lcR := clampC s.chR
    lcG := clampC s.chG
    lcB := clampC s.chB
    lp := s.brightP
    lpm := rampCeiling s.brightP
    ld := s.delay
    ls := s.steps }

/-- The level of ramp index `i` of the running pulse (45_pulse.md R193). -/
def rampLevel (i : BitVec 32) (s : State) : Rgb := rampScale3 s.cfg.scaleArith (latchedColour s) s.lpm i s.ls

/-- The accept path of PULSE, with the block idle (45_pulse.md R190). STEPS = 0 is InvalidArgument, which latches and
transmits nothing (R191). -/
def startPulse (s : State) : State :=
  if s.steps = 0#16 then raiseCondition .invalidArgument s
  else
    let s' := latchPulse s
    enter .rampUp 0#32 (rampLevel 0#32 s') s'

/-- PULSE (45_pulse.md R190). -/
def execPulse (s : State) : Host.Outcome State Fault Refusal := .next (unlessBusy startPulse s)

/-- Advance from RAMP_UP(i) (45_pulse.md R194). -/
def advanceRampUp (s : State) : State :=
  if s.idx.toNat < s.ls.toNat then enter .rampUp (s.idx + 1#32) (rampLevel (s.idx + 1#32) s) s
  else enter .rampDown (s.ls.setWidth 32) (rampLevel (s.ls.setWidth 32) s) s

/-- Advance from RAMP_DOWN(i) (45_pulse.md R195). -/
def advanceRampDown (s : State) : State :=
  if 0 < s.idx.toNat then enter .rampDown (s.idx - 1#32) (rampLevel (s.idx - 1#32) s) s
  else enter .finalOff 0#32 (scaledOff s) s

end Sys2Proof.Machine
end

