-- ==== Sys2Proof/Machine/SetColor.lean ====
section
/-! DEFINITION. SET, the exposed scale-and-transmit primitive (41_scale_and_transmit.md R128). -/

namespace Sys2Proof.Machine

/-- The accept path of SET, with the block idle (41_scale_and_transmit.md R128). It latches nothing (10_state.md R24). -/
def startSet (s : State) : State :=
  enter .single 0#32 (scale3 s.cfg.scaleArith (requestedColour s) s.brightP) s

/-- SET (41_scale_and_transmit.md R128). -/
def execSet (s : State) : Host.Outcome State Fault Refusal := .next (unlessBusy startSet s)

end Sys2Proof.Machine
end

