-- ==== Sys2Proof/Machine/Command.lean ====
section
/-! DEFINITION. WR CMD: the accept of a command word (40_brightness_and_registers.md R99). -/

namespace Sys2Proof.Machine

/-- The start of a decoded command, with the block idle (40_brightness_and_registers.md R99). -/
def startCommand (c : Command) (s : State) : State :=
  match c with
  | .illegal => startIllegal s
  | .fixed kr kg kb => startFixed kr kg kb s
  | .set => startSet s
  | .blink => startBlink s
  | .pulse => startPulse s

/-- WR CMD (40_brightness_and_registers.md R99): Busy is checked first (60_exceptions.md R216), then the word is decoded
(30_encoding.md R71). -/
def execWrCmd (data : Word) (s : State) : Host.Outcome State Fault Refusal :=
  .next (unlessBusy (startCommand (decodeCommand data)) s)

end Sys2Proof.Machine
end

