-- ==== Sys2Proof/Machine/RegisterReads.lean ====
section
/-! DEFINITION. The sixteen reads (40_brightness_and_registers.md). A read returns one word to the host and has no side
effect, busy or not (20_memory.md R56, R57). -/

namespace Sys2Proof.Machine

/-- RD CMD: returns 0 in every state (40_brightness_and_registers.md R100). -/
def execRdCmd (s : State) : Host.Outcome State Fault Refusal := .next (returnWord 0#4 0#32 s)

/-- RD STATUS: returns the status word (40_brightness_and_registers.md R92). -/
def execRdStatus (s : State) : Host.Outcome State Fault Refusal := .next (returnWord 1#4 (statusWord s) s)

/-- RD BRIGHT: returns BRIGHT.P, zero-extended (40_brightness_and_registers.md R90). -/
def execRdBright (s : State) : Host.Outcome State Fault Refusal := .next (returnWord 2#4 (s.brightP.setWidth 32) s)

/-- RD CH_R: returns the stored word, unclamped (40_brightness_and_registers.md R94). -/
def execRdChR (s : State) : Host.Outcome State Fault Refusal := .next (returnWord 3#4 s.chR s)

/-- RD CH_G: returns the stored word, unclamped (40_brightness_and_registers.md R94). -/
def execRdChG (s : State) : Host.Outcome State Fault Refusal := .next (returnWord 4#4 s.chG s)

/-- RD CH_B: returns the stored word, unclamped (40_brightness_and_registers.md R94). -/
def execRdChB (s : State) : Host.Outcome State Fault Refusal := .next (returnWord 5#4 s.chB s)

/-- RD DELAY: returns the stored word (40_brightness_and_registers.md R94). -/
def execRdDelay (s : State) : Host.Outcome State Fault Refusal := .next (returnWord 6#4 s.delay s)

/-- RD COUNT: returns the stored word (40_brightness_and_registers.md R94). -/
def execRdCount (s : State) : Host.Outcome State Fault Refusal := .next (returnWord 7#4 s.count s)

/-- RD STEPS: returns STEPS, zero-extended (40_brightness_and_registers.md R94). -/
def execRdSteps (s : State) : Host.Outcome State Fault Refusal := .next (returnWord 8#4 (s.steps.setWidth 32) s)

/-- RD IDX: returns IDX (40_brightness_and_registers.md R101). -/
def execRdIdx (s : State) : Host.Outcome State Fault Refusal := .next (returnWord 9#4 s.idx s)

/-- RD WAITCNT: returns WAITCNT (40_brightness_and_registers.md R101). -/
def execRdWaitcnt (s : State) : Host.Outcome State Fault Refusal := .next (returnWord 10#4 s.waitcnt s)

/-- RD W11: returns 0 (40_brightness_and_registers.md R102). -/
def execRdW11 (s : State) : Host.Outcome State Fault Refusal := .next (returnWord 11#4 0#32 s)

/-- RD W12: returns 0 (40_brightness_and_registers.md R102). -/
def execRdW12 (s : State) : Host.Outcome State Fault Refusal := .next (returnWord 12#4 0#32 s)

/-- RD W13: returns 0 (40_brightness_and_registers.md R102). -/
def execRdW13 (s : State) : Host.Outcome State Fault Refusal := .next (returnWord 13#4 0#32 s)

/-- RD W14: returns 0 (40_brightness_and_registers.md R102). -/
def execRdW14 (s : State) : Host.Outcome State Fault Refusal := .next (returnWord 14#4 0#32 s)

/-- RD W15: returns 0 (40_brightness_and_registers.md R102). -/
def execRdW15 (s : State) : Host.Outcome State Fault Refusal := .next (returnWord 15#4 0#32 s)

end Sys2Proof.Machine
end

