-- ==== Sys2Proof/Machine/RegisterWrites.lean ====
section
/-! DEFINITION. The writes of every slot but CMD (40_brightness_and_registers.md R91, R93, R95 to R98, R101, R102). -/

namespace Sys2Proof.Machine

/-- WR STATUS: write-1-to-clear of the four sticky bits, taken while busy too (40_brightness_and_registers.md R93). -/
def execWrStatus (data : Word) (s : State) : Host.Outcome State Fault Refusal := .next (clearSticky data s)

/-- WR BRIGHT: stores the clamped percent; dropped while busy (40_brightness_and_registers.md R91). -/
def execWrBright (data : Word) (s : State) : Host.Outcome State Fault Refusal :=
  .next (unlessBusy (fun s => { s with brightP := clampPercent data }) s)

/-- WR CH_R: stores the word unclamped; dropped while busy (40_brightness_and_registers.md R95). -/
def execWrChR (data : Word) (s : State) : Host.Outcome State Fault Refusal :=
  .next (unlessBusy (fun s => { s with chR := data }) s)

/-- WR CH_G: stores the word unclamped; dropped while busy (40_brightness_and_registers.md R95). -/
def execWrChG (data : Word) (s : State) : Host.Outcome State Fault Refusal :=
  .next (unlessBusy (fun s => { s with chG := data }) s)

/-- WR CH_B: stores the word unclamped; dropped while busy (40_brightness_and_registers.md R95). -/
def execWrChB (data : Word) (s : State) : Host.Outcome State Fault Refusal :=
  .next (unlessBusy (fun s => { s with chB := data }) s)

/-- WR DELAY: stores the word; dropped while busy (40_brightness_and_registers.md R96). -/
def execWrDelay (data : Word) (s : State) : Host.Outcome State Fault Refusal :=
  .next (unlessBusy (fun s => { s with delay := data }) s)

/-- WR COUNT: stores the word; dropped while busy (40_brightness_and_registers.md R97). -/
def execWrCount (data : Word) (s : State) : Host.Outcome State Fault Refusal :=
  .next (unlessBusy (fun s => { s with count := data }) s)

/-- WR STEPS: stores w[15:0]; dropped while busy (40_brightness_and_registers.md R98). -/
def execWrSteps (data : Word) (s : State) : Host.Outcome State Fault Refusal :=
  .next (unlessBusy (fun s => { s with steps := data.extractLsb' 0 16 }) s)

/-- A write that is ignored: no register and no status bit changes, busy or not (40_brightness_and_registers.md R101, R102). -/
def ignoredWrite (_data : Word) (s : State) : State := s

/-- WR IDX: ignored, and BUSYERR is not set even while busy (40_brightness_and_registers.md R101). -/
def execWrIdx (data : Word) (s : State) : Host.Outcome State Fault Refusal := .next (ignoredWrite data s)

/-- WR WAITCNT: ignored, and BUSYERR is not set even while busy (40_brightness_and_registers.md R101). -/
def execWrWaitcnt (data : Word) (s : State) : Host.Outcome State Fault Refusal := .next (ignoredWrite data s)

/-- WR W11: ignored, and BUSYERR is not set even while busy (40_brightness_and_registers.md R102). -/
def execWrW11 (data : Word) (s : State) : Host.Outcome State Fault Refusal := .next (ignoredWrite data s)

/-- WR W12: ignored, and BUSYERR is not set even while busy (40_brightness_and_registers.md R102). -/
def execWrW12 (data : Word) (s : State) : Host.Outcome State Fault Refusal := .next (ignoredWrite data s)

/-- WR W13: ignored, and BUSYERR is not set even while busy (40_brightness_and_registers.md R102). -/
def execWrW13 (data : Word) (s : State) : Host.Outcome State Fault Refusal := .next (ignoredWrite data s)

/-- WR W14: ignored, and BUSYERR is not set even while busy (40_brightness_and_registers.md R102). -/
def execWrW14 (data : Word) (s : State) : Host.Outcome State Fault Refusal := .next (ignoredWrite data s)

/-- WR W15: ignored, and BUSYERR is not set even while busy (40_brightness_and_registers.md R102). -/
def execWrW15 (data : Word) (s : State) : Host.Outcome State Fault Refusal := .next (ignoredWrite data s)

end Sys2Proof.Machine
end

