-- ==== Sys2Proof/Machine/Dispatch.lean ====
section
/-! DEFINITION. The dispatch: one arm per constructor of Instr. -/

namespace Sys2Proof.Machine

/-- The meaning of an instruction. -/
def exec (i : Instr) (s : State) : Host.Outcome State Fault Refusal :=
  match i with
  | .off => Sys2Proof.Machine.execOff s
  | .blue => Sys2Proof.Machine.execBlue s
  | .green => Sys2Proof.Machine.execGreen s
  | .cyan => Sys2Proof.Machine.execCyan s
  | .red => Sys2Proof.Machine.execRed s
  | .magenta => Sys2Proof.Machine.execMagenta s
  | .yellow => Sys2Proof.Machine.execYellow s
  | .white => Sys2Proof.Machine.execWhite s
  | .set => Sys2Proof.Machine.execSet s
  | .blink => Sys2Proof.Machine.execBlink s
  | .pulse => Sys2Proof.Machine.execPulse s
  | .illegalOpB => Sys2Proof.Machine.execIllegalOpB s
  | .illegalOpCF lo => Sys2Proof.Machine.execIllegalOpCF lo s
  | .illegalRsv rsv op => Sys2Proof.Machine.execIllegalRsv rsv op s
  | .rdCmd => Sys2Proof.Machine.execRdCmd s
  | .rdStatus => Sys2Proof.Machine.execRdStatus s
  | .rdBright => Sys2Proof.Machine.execRdBright s
  | .rdChR => Sys2Proof.Machine.execRdChR s
  | .rdChG => Sys2Proof.Machine.execRdChG s
  | .rdChB => Sys2Proof.Machine.execRdChB s
  | .rdDelay => Sys2Proof.Machine.execRdDelay s
  | .rdCount => Sys2Proof.Machine.execRdCount s
  | .rdSteps => Sys2Proof.Machine.execRdSteps s
  | .rdIdx => Sys2Proof.Machine.execRdIdx s
  | .rdWaitcnt => Sys2Proof.Machine.execRdWaitcnt s
  | .rdW11 => Sys2Proof.Machine.execRdW11 s
  | .rdW12 => Sys2Proof.Machine.execRdW12 s
  | .rdW13 => Sys2Proof.Machine.execRdW13 s
  | .rdW14 => Sys2Proof.Machine.execRdW14 s
  | .rdW15 => Sys2Proof.Machine.execRdW15 s
  | .wrCmd data => Sys2Proof.Machine.execWrCmd data s
  | .wrStatus data => Sys2Proof.Machine.execWrStatus data s
  | .wrBright data => Sys2Proof.Machine.execWrBright data s
  | .wrChR data => Sys2Proof.Machine.execWrChR data s
  | .wrChG data => Sys2Proof.Machine.execWrChG data s
  | .wrChB data => Sys2Proof.Machine.execWrChB data s
  | .wrDelay data => Sys2Proof.Machine.execWrDelay data s
  | .wrCount data => Sys2Proof.Machine.execWrCount data s
  | .wrSteps data => Sys2Proof.Machine.execWrSteps data s
  | .wrIdx data => Sys2Proof.Machine.execWrIdx data s
  | .wrWaitcnt data => Sys2Proof.Machine.execWrWaitcnt data s
  | .wrW11 data => Sys2Proof.Machine.execWrW11 data s
  | .wrW12 data => Sys2Proof.Machine.execWrW12 data s
  | .wrW13 data => Sys2Proof.Machine.execWrW13 data s
  | .wrW14 data => Sys2Proof.Machine.execWrW14 data s
  | .wrW15 data => Sys2Proof.Machine.execWrW15 data s

end Sys2Proof.Machine
end

