-- ==== Sys2Proof/Machine/EffectTimer.lean ====
section
/-! DEFINITION. The effect timer (43_effect_timer.md) and the transmit answers (41_scale_and_transmit.md R127,
60_exceptions.md R211). -/

namespace Sys2Proof.Machine

/-- `Advance` (43_effect_timer.md R166). It is never called in the other four phases, where it leaves the state as it is
(log 11). -/
def advance (s : State) : State :=
  match s.phase with
  | .blinkOn => advanceBlinkOn s
  | .blinkOff => advanceBlinkOff s
  | .rampUp => advanceRampUp s
  | .rampDown => advanceRampDown s
  | .idle | .single | .finalOff | .resetOff => s

/-- `StartWait` (43_effect_timer.md R162): a zero delay waits no tick. -/
def startWait (s : State) : State := if s.ld = 0#32 then advance s else { s with waitcnt := s.ld }

/-- `PhaseDone` (43_effect_timer.md R161). It is never called in IDLE, where it leaves the state as it is (log 11). -/
def phaseDone (s : State) : State :=
  match s.phase with
  | .single | .finalOff | .resetOff => finish s
  | .blinkOn | .blinkOff | .rampUp | .rampDown => startWait s
  | .idle => s

/-- `Tick` (43_effect_timer.md R163); any other tick is discarded (R164). -/
def tick (s : State) : State :=
  if waiting s.phase ∧ s.txp = false ∧ 0 < s.waitcnt.toNat then
    let s' := { s with waitcnt := s.waitcnt - 1#32 }
    if s'.waitcnt = 0#32 then advance s' else s'
  else s

/-- `TxResp(OK)` (41_scale_and_transmit.md R127), given TXP = 1. -/
def txRespOk (s : State) : State :=
  phaseDone { s with txp := false, led := .known s.slot, txlog := answerLast .ok s.txlog }

/-- `TxResp(FAIL)` (60_exceptions.md R211), given TXP = 1: TransmitFailure ends the running operation. -/
def txRespFail (s : State) : State :=
  finish (raiseCondition .transmitFailure
    { s with txp := false, led := .unknown, txlog := answerLast .fail s.txlog })

end Sys2Proof.Machine
end

