-- ==== Sys2Proof/Machine/Events.lean ====
section
/-! DEFINITION. What each event does (00_scope.md R7), and where the next instruction is fetched. -/

namespace Sys2Proof.Machine

/-- The access key of a byte-addressing host's access: WIDX is the byte offset divided by 4 (20_memory.md R51); none for
a sub-word or misaligned access, which is outside the model (R55, log 8). -/
def bridgeKey (we : Bool) (offset : BitVec 6) (size : AccessSize) : Option (BitVec 5) :=
  match size with
  | .word => if offset.extractLsb' 0 2 = 0#2 then some (BitVec.ofBool we ++ offset.extractLsb' 2 4) else none
  | .byte | .half => none

/-- One event, processed whole (00_scope.md R7, 43_effect_timer.md R160). -/
def runEvent (e : Event) (s : State) : Host.Outcome State Fault Refusal :=
  match e with
  | .access key data => exec (decodeAccess key data) s
  | .byteAccess we offset size data =>
    match bridgeKey we offset size with
    | some key => exec (decodeAccess key data) s
    | none => .refused .subWordOrMisaligned
  | .tick => .next (tick s)
  | .txOk => if s.txp then .next (txRespOk s) else .fault .noTransmitOutstanding
  | .txFail => if s.txp then .next (txRespFail s) else .fault .noTransmitOutstanding
  | .reset => .next (resetBlock s)

/-- The next event is taken from the head of `inputs`. With none to come nothing changes: the block never moves on its own
(43_effect_timer.md R160, 60_exceptions.md R227; log 2). -/
def runNextEvent (s : State) : Host.Outcome State Fault Refusal :=
  match s.inputs with
  | [] => .next s
  | e :: rest => runEvent e { s with inputs := rest }

/-- The host access that carries the instruction of a table row's bits: a command word is the data word of a write to CMD,
key 0x10 (30_encoding.md R70); an access row is its key, with the data word above it (R75, log 6). -/
def rowAccess (nbits w : Nat) : Event :=
  if nbits = 32 then .access 0x10#5 (BitVec.ofNat 32 w) else .access (BitVec.ofNat 5 w) (BitVec.ofNat 32 (w / 256))

/-- The access of a table row's bits placed where the next event is taken from; nothing where the decoder refuses them. -/
def placeRow (nbits w : Nat) (s : State) : State :=
  match decodeTableWord nbits w with
  | some _ => { s with inputs := rowAccess nbits w :: s.inputs }
  | none => s

end Sys2Proof.Machine
end

