-- ==== Sys2Proof/Machine/Step.lean ====
section
/-! DEFINITION. The step: one event (00_scope.md R7). -/

namespace Sys2Proof.Machine

/-- One step. A configuration with NUM_PIXELS other than 1 is refused (10_state.md R35, log 13). -/
def step (s : State) : Host.Outcome State Fault Refusal :=
  if s.cfg.numPixels = 1 then runNextEvent s else .refused .pixelCount

/-- `s` with a table row's instruction as the next event to come. -/
def State.withFetchWord (s : State) (nbits w : Nat) : State := placeRow nbits w s

end Sys2Proof.Machine
end

