-- ==== Sys2Proof/Machine/Script.lean ====
section
/-! DEFINITION. The host script notation and its pseudo-instructions (30_encoding.md R79, R80). This layer is the host's,
not the block's: it only says which events a script line stands for. -/

namespace Sys2Proof.Machine

/-- `WR <slot>, <value>` (30_encoding.md R79): `BusWrite(widx, w)`. -/
def busWrite (widx : BitVec 4) (w : Word) : Event := .access (1#1 ++ widx) w

/-- `RD <slot>` (30_encoding.md R79): `BusRead(widx)`. -/
def busRead (widx : BitVec 4) : Event := .access (0#1 ++ widx) 0#32

/-- The pseudo-instructions of 30_encoding.md R80, less WAITIDLE (see `waitIdle`). -/
inductive Pseudo where
  /-- `SETBRIGHT p` with p = num / den: the source's percent is "any numeric value" (93_implementation_defined.md U5) -/
  | setBright (num : Int) (den : Nat)
  /-- `OFF` to `WHITE`: the fixed colour with these channels enabled (30_encoding.md R73) -/
  | fixed (kr kg kb : Bool)
  /-- `SETRGB r, g, b` -/
  | setRgb (r g b : Word)
  /-- `BLINKC r, g, b, d, n` -/
  | blinkC (r g b d n : Word)
  /-- `PULSEC r, g, b, s, d` -/
  | pulseC (r g b s d : Word)
  /-- `CLRERR` -/
  | clrErr
deriving DecidableEq, Repr

/-- The expansion of a pseudo-instruction (30_encoding.md R80). A percent that is no 32-bit integer is refused
(93_implementation_defined.md U5; log 14). -/
def expand : Pseudo → Except Refusal (List Event)
  | .setBright num den =>
    if den ≠ 0 ∧ num % den = 0 ∧ -2 ^ 31 ≤ num / den ∧ num / den < 2 ^ 31 then
      .ok [busWrite 2#4 (BitVec.ofInt 32 (num / den))]
    else .error .percentNotInteger
  | .fixed kr kg kb => .ok [busWrite 0#4 (0#29 ++ BitVec.ofBool kr ++ BitVec.ofBool kg ++ BitVec.ofBool kb : BitVec (29 + 1 + 1 + 1))]
  | .setRgb r g b => .ok [busWrite 3#4 r, busWrite 4#4 g, busWrite 5#4 b, busWrite 0#4 0x8#32]
  | .blinkC r g b d n =>
    .ok [busWrite 3#4 r, busWrite 4#4 g, busWrite 5#4 b, busWrite 6#4 d, busWrite 7#4 n, busWrite 0#4 0x9#32]
  | .pulseC r g b s d =>
    .ok [busWrite 3#4 r, busWrite 4#4 g, busWrite 5#4 b, busWrite 8#4 s, busWrite 6#4 d, busWrite 0#4 0xA#32]
  | .clrErr => .ok [busWrite 1#4 0x00000F00#32]

/-- A list of events, each processed whole, stopping at the first fault or refusal (20_memory.md R59). -/
def runEvents : List Event → State → Host.Outcome State Fault Refusal
  | [], s => .next s
  | e :: es, s =>
    match runEvent e s with
    | .next s' => runEvents es s'
    | .fault r => .fault r
    | .refused r => .refused r

/-- `WAITIDLE` (30_encoding.md R80): `RD STATUS`, repeated while bit 0 of the word read is 1. The loop is the host's; between
two polls one event of the other agents, `env`, arrives (log 15). It ends when a poll reads BUSY = 0 or `env` is used up. -/
def waitIdle : List Event → State → Host.Outcome State Fault Refusal
  | [], s => runEvent (busRead 1#4) s
  | e :: env, s =>
    match runEvent (busRead 1#4) s with
    | .next s' =>
      if (slotWord 1#4 s).getLsbD 0 then
        match runEvent e s' with
        | .next s'' => waitIdle env s''
        | .fault r => .fault r
        | .refused r => .refused r
      else .next s'
    | .fault r => .fault r
    | .refused r => .refused r

end Sys2Proof.Machine
end

