-- ==== Sys2Proof/Safety.lean ====
section
/-! DEFINITION. The terms claims are stated in: the invariants of a reachable state, what instruction an event carries, and
the events that answer a running effect. -/

namespace Sys2Proof.Machine

/-- 10_state.md R33 (a) to (d). -/
structure SequencerInv (s : State) : Prop where
  idle_quiet : s.phase = .idle → s.txp = false ∧ s.idx = 0#32 ∧ s.waitcnt = 0#32
  counting_waits : s.waitcnt ≠ 0#32 → s.txp = false ∧ waiting s.phase = true
  pending_busy : s.txp = true → s.phase ≠ .idle
  wait_counts : waiting s.phase = true → s.txp = false → s.waitcnt ≠ 0#32

/-- The ranges of 10_state.md R20, R25, R27 and R32. -/
structure RangeInv (s : State) : Prop where
  bright_le : s.brightP.toNat ≤ 100
  lp_le : s.lp.toNat ≤ 100
  lpm_pos : 1 ≤ s.lpm.toNat
  lpm_le : s.lpm.toNat ≤ 100
  waitcnt_le : s.waitcnt.toNat ≤ s.ld.toNat
  idx_other : waiting s.phase = false → s.idx = 0#32
  idx_blink : s.phase = .blinkOn ∨ s.phase = .blinkOff → s.idx.toNat < s.ln.toNat
  idx_ramp : s.phase = .rampUp ∨ s.phase = .rampDown → s.idx.toNat ≤ s.ls.toNat ∧ 1 ≤ s.ls.toNat

/-- The outstanding request and the observation records (10_state.md R29, R34, R40): TXP is 1 exactly while the last entry
of TXLOG is PENDING; that entry's triple is SLOT; LED is what its answer made it. -/
structure TransmitInv (s : State) : Prop where
  log_nonempty : s.txlog ≠ []
  last_slot : ∀ e ∈ s.txlog.getLast?, e.rgb = s.slot
  pending_iff : ∀ e ∈ s.txlog.getLast?, (e.result = .pending ↔ s.txp = true)
  led_ok : ∀ e ∈ s.txlog.getLast?, e.result = .ok → s.led = .known s.slot
  led_fail : ∀ e ∈ s.txlog.getLast?, e.result = .fail → s.led = .unknown
  unwaited_pending : s.phase = .single ∨ s.phase = .finalOff ∨ s.phase = .resetOff → s.txp = true

/-- 10_state.md R24: while an effect runs, its latched operands are what the live registers hold. -/
structure LatchInv (s : State) : Prop where
  blink : s.phase = .blinkOn ∨ s.phase = .blinkOff →
    latchedColour s = requestedColour s ∧ s.lp = s.brightP ∧ s.ld = s.delay ∧ s.ln = s.count
  pulse : s.phase = .rampUp ∨ s.phase = .rampDown ∨ s.phase = .finalOff →
    latchedColour s = requestedColour s ∧ s.lp = s.brightP ∧ s.lpm = rampCeiling s.brightP ∧ s.ld = s.delay ∧ s.ls = s.steps

/-- The triple each phase holds in SLOT (44_blink.md R181, 45_pulse.md R193, 70_reset_and_hazards.md R241). -/
structure ColourInv (s : State) : Prop where
  on : s.phase = .blinkOn → s.slot = scale3 s.cfg.scaleArith (latchedColour s) s.lp
  ramp : s.phase = .rampUp ∨ s.phase = .rampDown →
    s.slot = rampScale3 s.cfg.scaleArith (latchedColour s) s.lpm s.idx s.ls
  off : s.phase = .blinkOff ∨ s.phase = .finalOff ∨ s.phase = .resetOff → s.slot = Rgb.off

/-- What holds between events (43_effect_timer.md R160, 10_state.md R33). -/
structure Inv (s : State) : Prop where
  sequencer : SequencerInv s
  range : RangeInv s
  transmit : TransmitInv s
  latch : LatchInv s
  colour : ColourInv s

/-- The instruction an event carries: that of a host access, or of the slot access a byte-addressing host makes. -/
def eventInstr : Event → Option Instr
  | .access key data => some (decodeAccess key data)
  | .byteAccess we offset size data => (bridgeKey we offset size).map (fun key => decodeAccess key data)
  | .tick | .txOk | .txFail | .reset => none

/-- The event the next step processes. -/
def nextEvent (s : State) : Option Event := s.inputs.head?

/-- The instruction the next step processes. -/
def nextInstr (s : State) : Option Instr := (nextEvent s).bind eventInstr

/-- The instructions that are dropped while busy (20_memory.md R57): the commands, which are writes to CMD, and the writes
of CMD, BRIGHT and the argument registers. -/
def droppedWhenBusy : Instr → Bool
  | .off | .blue | .green | .cyan | .red | .magenta | .yellow | .white | .set | .blink | .pulse => true
  | .illegalOpB | .illegalOpCF _ | .illegalRsv _ _ => true
  | .wrCmd _ | .wrBright _ | .wrChR _ | .wrChG _ | .wrChB _ | .wrDelay _ | .wrCount _ | .wrSteps _ => true
  | .wrStatus _ | .wrIdx _ | .wrWaitcnt _ | .wrW11 _ | .wrW12 _ | .wrW13 _ | .wrW14 _ | .wrW15 _ => false
  | .rdCmd | .rdStatus | .rdBright | .rdChR | .rdChG | .rdChB | .rdDelay | .rdCount | .rdSteps => false
  | .rdIdx | .rdWaitcnt | .rdW11 | .rdW12 | .rdW13 | .rdW14 | .rdW15 => false

/-- The command an instruction asks for: a command row's, or that of the word written to CMD (30_encoding.md R71 to R73). -/
def acceptedCommand : Instr → Option Command
  | .off => some (.fixed false false false)
  | .blue => some (.fixed false false true)
  | .green => some (.fixed false true false)
  | .cyan => some (.fixed false true true)
  | .red => some (.fixed true false false)
  | .magenta => some (.fixed true false true)
  | .yellow => some (.fixed true true false)
  | .white => some (.fixed true true true)
  | .set => some .set
  | .blink => some .blink
  | .pulse => some .pulse
  | .illegalOpB | .illegalOpCF _ | .illegalRsv _ _ => some .illegal
  | .wrCmd w => some (decodeCommand w)
  | .wrBright _ | .wrChR _ | .wrChG _ | .wrChB _ | .wrDelay _ | .wrCount _ | .wrSteps _ => none
  | .wrStatus _ | .wrIdx _ | .wrWaitcnt _ | .wrW11 _ | .wrW12 _ | .wrW13 _ | .wrW14 _ | .wrW15 _ => none
  | .rdCmd | .rdStatus | .rdBright | .rdChR | .rdChG | .rdChB | .rdDelay | .rdCount | .rdSteps => none
  | .rdIdx | .rdWaitcnt | .rdW11 | .rdW12 | .rdW13 | .rdW14 | .rdW15 => none

/-- The tick source and the transmit primitive during one waiting phase: `m` ticks before the answer, the answer OK, then
the `ld` ticks of the wait (43_effect_timer.md R161 to R164). -/
def phaseEvents (ld m : Nat) : List Event := List.replicate m .tick ++ .txOk :: List.replicate ld .tick

/-- Waiting phases one after another, with the given numbers of ticks before each answer. -/
def phasesEvents (ld : Nat) (ms : List Nat) : List Event := (ms.map (phaseEvents ld)).flatten

/-- The triple of ramp index `i` of a PULSE accepted in `s` (45_pulse.md R193). -/
def pulseLevel (s : State) (i : Nat) : Rgb :=
  rampScale3 s.cfg.scaleArith (requestedColour s) (rampCeiling s.brightP) (BitVec.ofNat 32 i) s.steps

/-- An entry of TXLOG answered OK. -/
def okEntry (c : Rgb) : TxEntry := ⟨c, .ok⟩

end Sys2Proof.Machine
end

