-- ==== Sys2Proof/Certificates/Slice0/Obligations.lean ====
section
/-! DEFINITION. The statements for the provers. A record update names every field that changes, so an equation of states is
its own frame: everything it does not name is unchanged, the register space and the observation records included. -/

open Sys2Proof Sys2Proof.Machine

section Encoding

/-- 30_encoding.md R70 to R77: no bit of an encoding is dropped. The byte layout is the model's choice (log 6). -/
def Obligations.DecodeOfEncode : Prop :=
  ∀ i : Instr, i.wellFormed = true → decode (encode i) = .ok i

/-- The other direction: accepted bytes are the encoding of what they decode to, but for a read's data bytes, which are
not looked at (30_encoding.md R75; the byte layout is log 6, the unused data is log 7). -/
def Obligations.EncodeOfDecode : Prop :=
  ∀ (bs : List Byte) (i : Instr), decode bs = .ok i →
    i.wellFormed = true ∧
    (i.access.1.getLsbD 4 = true → encode i = bs) ∧
    (i.access.1.getLsbD 4 = false → bs.head? = (encode i).head? ∧ bs.length = 5)

/-- 30_encoding.md R71, by the value of the word: it has a bit of [31:4] set, or OP in 0xB..0xF, exactly if it is at least
11. -/
def Obligations.CommandWordsDecode : Prop :=
  ∀ w : Word,
    (w.toNat < 8 →
      decodeCommand w = .fixed (w.toNat.testBit 2) (w.toNat.testBit 1) (w.toNat.testBit 0)) ∧
    (w.toNat = 8 → decodeCommand w = .set) ∧
    (w.toNat = 9 → decodeCommand w = .blink) ∧
    (w.toNat = 10 → decodeCommand w = .pulse) ∧
    (11 ≤ w.toNat → decodeCommand w = .illegal)

/-- A few words of the table, written out from 30_encoding.md R72 and R75. -/
def Obligations.TableWordsDecode : Prop :=
  decodeTableWord 32 0x00000000 = some .off ∧
  decodeTableWord 32 0x00000004 = some .red ∧
  decodeTableWord 32 0x00000008 = some .set ∧
  decodeTableWord 32 0x00000009 = some .blink ∧
  decodeTableWord 32 0x0000000A = some .pulse ∧
  decodeTableWord 32 0x0000000D = some (.illegalOpCF 1#2) ∧
  decodeTableWord 32 0x0000001A = some (.illegalRsv 0x1#28 0xA#4) ∧
  decodeTableWord 8 0x01 = some .rdStatus ∧
  decodeTableWord 8 0x12 = some (.wrBright 0#32) ∧
  decodeTableWord 8 0x20 = none

/-- Writing a command word to CMD is running the row of the table the word belongs to (30_encoding.md R72, R80,
40_brightness_and_registers.md R99), busy or not; and the row's word is that word. -/
def Obligations.CmdWriteRunsItsRow : Prop :=
  ∀ (w : Word) (s : State),
    (∃ t, exec (.wrCmd w) s = .next t ∧ exec (commandRow w) s = .next t) ∧
    (commandRow w).commandWord? = some w ∧ (commandRow w).wellFormed = true

end Encoding

section Step

/-- A step processes the event at the head of `inputs`: a host access runs the instruction its key and data decode to, and
a write of a command word to CMD (key 0x10) runs the command. The event leaves `inputs`; nothing else is added. -/
def Obligations.StepRunsDecodedInstruction : Prop :=
  ∀ (s : State) (key : BitVec 5) (data : Word) (rest : List Event) (i : Instr),
    s.cfg.numPixels = 1 → s.inputs = .access key data :: rest →
    (decode (key.setWidth 8 :: wordBytes data) = .ok i ∨ (key = 0x10#5 ∧ decode (wordBytes data) = .ok i)) →
    i.wellFormed = true ∧ step s = exec i { s with inputs := rest }

/-- The instruction of a table row, placed by `withFetchWord`, is what the next step runs. -/
def Obligations.FetchedWordRuns : Prop :=
  ∀ (s : State) (nbits w : Nat) (i : Instr),
    s.cfg.numPixels = 1 → decodeTableWord nbits w = some i →
    step (s.withFetchWord nbits w) = exec i s

/-- 43_effect_timer.md R160: with no event to come, nothing changes. -/
def Obligations.NoEventNoChange : Prop :=
  ∀ s : State, s.cfg.numPixels = 1 → s.inputs = [] → step s = .next s

/-- A configuration with NUM_PIXELS other than 1 is refused by every step, whatever event is to come, and NUM_PIXELS = 1 is
never refused for it. That such a configuration is refused is 10_state.md, section 7 (Pixel slot), "A model given another value
refuses the configuration."; that each step is what answers the refusal is log 13 (DEDUCED: the spec does not say when). -/
def Obligations.OtherPixelCountsRefused : Prop :=
  ∀ s : State, step s = .refused .pixelCount ↔ s.cfg.numPixels ≠ 1

/-- 20_memory.md R51, R55: a host that addresses the block by bytes reaches slot offset / 4 with an aligned word access; a
byte, halfword or misaligned access is refused by name. -/
def Obligations.ByteAddressedAccess : Prop :=
  ∀ (s : State) (we : Bool) (offset : BitVec 6) (size : AccessSize) (data : Word) (rest : List Event),
    s.cfg.numPixels = 1 → s.inputs = .byteAccess we offset size data :: rest →
    (size = .word → offset.toNat % 4 = 0 →
      step s = exec (decodeAccess (BitVec.ofNat 5 (16 * we.toNat + offset.toNat / 4)) data) { s with inputs := rest }) ∧
    (size ≠ .word ∨ offset.toNat % 4 ≠ 0 → step s = .refused .subWordOrMisaligned)

/-- 41_scale_and_transmit.md R127, 60_exceptions.md R211: the transmit primitive has no response step while TXP = 0. -/
def Obligations.NoAnswerWithoutRequest : Prop :=
  ∀ (s : State) (e : Event), e = .txOk ∨ e = .txFail →
    (runEvent e s = .fault .noTransmitOutstanding ↔ s.txp = false)

/-- Ordinary operation never stops the machine: every instruction answers a next state in every state, so a step stops
only in a refused configuration, on an answer nothing asked for, or on a sub-word or misaligned access. -/
def Obligations.OnlyTheseEventsStop : Prop :=
  ∀ s : State, s.cfg.numPixels = 1 → (∀ t, step s ≠ .next t) →
    (s.txp = false ∧ (nextEvent s = some .txOk ∨ nextEvent s = some .txFail)) ∨
    (∃ we offset size data, nextEvent s = some (.byteAccess we offset size data) ∧
      (size ≠ .word ∨ offset.toNat % 4 ≠ 0))

/-- 20_memory.md R59: each event reads the state left by every earlier event and by nothing later: the events still to
come do not influence what an event does, and it does not change them. -/
def Obligations.EventsDoNotSeeTheFuture : Prop :=
  ∀ (e : Event) (s : State) (later : List Event),
    match runEvent e s with
    | .next t => t.inputs = s.inputs ∧ runEvent e { s with inputs := later } = .next { t with inputs := later }
    | .fault r => runEvent e { s with inputs := later } = .fault r
    | .refused r => runEvent e { s with inputs := later } = .refused r

end Step

section Reads

/-- The sixteen reads (40_brightness_and_registers.md R90, R92, R94, R100 to R102): each returns its word to the host and
changes nothing else, in every state, busy or not (20_memory.md R56, R57). The record of returned words is log 3. -/
def Obligations.ReadsReturnTheirWord : Prop :=
  ∀ s : State,
    exec .rdCmd s = .next { s with rdlog := s.rdlog ++ [(0#4, 0#32)] } ∧
    exec .rdStatus s = .next { s with rdlog := s.rdlog ++ [(1#4, statusWord s)] } ∧
    exec .rdBright s = .next { s with rdlog := s.rdlog ++ [(2#4, BitVec.ofNat 32 s.brightP.toNat)] } ∧
    exec .rdChR s = .next { s with rdlog := s.rdlog ++ [(3#4, s.chR)] } ∧
    exec .rdChG s = .next { s with rdlog := s.rdlog ++ [(4#4, s.chG)] } ∧
    exec .rdChB s = .next { s with rdlog := s.rdlog ++ [(5#4, s.chB)] } ∧
    exec .rdDelay s = .next { s with rdlog := s.rdlog ++ [(6#4, s.delay)] } ∧
    exec .rdCount s = .next { s with rdlog := s.rdlog ++ [(7#4, s.count)] } ∧
    exec .rdSteps s = .next { s with rdlog := s.rdlog ++ [(8#4, BitVec.ofNat 32 s.steps.toNat)] } ∧
    exec .rdIdx s = .next { s with rdlog := s.rdlog ++ [(9#4, s.idx)] } ∧
    exec .rdWaitcnt s = .next { s with rdlog := s.rdlog ++ [(10#4, s.waitcnt)] } ∧
    exec .rdW11 s = .next { s with rdlog := s.rdlog ++ [(11#4, 0#32)] } ∧
    exec .rdW12 s = .next { s with rdlog := s.rdlog ++ [(12#4, 0#32)] } ∧
    exec .rdW13 s = .next { s with rdlog := s.rdlog ++ [(13#4, 0#32)] } ∧
    exec .rdW14 s = .next { s with rdlog := s.rdlog ++ [(14#4, 0#32)] } ∧
    exec .rdW15 s = .next { s with rdlog := s.rdlog ++ [(15#4, 0#32)] }

/-- 40_brightness_and_registers.md R92 with the codes of 10_state.md R31: every bit of the status word. -/
def Obligations.StatusWordBits : Prop :=
  ∀ s : State,
    (statusWord s).getLsbD 0 = decide (s.phase ≠ .idle) ∧
    ((statusWord s).toNat / 2 % 8 = match s.phase with
      | .idle => 0
      | .single => 1
      | .blinkOn => 2
      | .blinkOff => 3
      | .rampUp => 4
      | .rampDown => 5
      | .finalOff => 6
      | .resetOff => 7) ∧
    (statusWord s).getLsbD 4 = s.txp ∧
    (statusWord s).getLsbD 8 = s.txfail ∧
    (statusWord s).getLsbD 9 = s.invarg ∧
    (statusWord s).getLsbD 10 = s.busyerr ∧
    (statusWord s).getLsbD 11 = s.illcmd ∧
    (statusWord s).getLsbD 16 = decide (s.cfg.scaleArith = .binary64) ∧
    ∀ n, (5 ≤ n ∧ n ≤ 7) ∨ (12 ≤ n ∧ n ≤ 15) ∨ 17 ≤ n → (statusWord s).getLsbD n = false

/-- 20_memory.md R56: a read by any key returns its slot's word, changes nothing else, and the same read again returns the
same word. -/
def Obligations.ReadsHaveNoSideEffect : Prop :=
  ∀ (widx : BitVec 4) (data data' : Word) (s : State),
    ∃ t, runEvent (.access (0#1 ++ widx) data) s = .next t ∧
      t = { s with rdlog := s.rdlog ++ [(widx, slotWord widx s)] } ∧
      runEvent (.access (0#1 ++ widx) data') t =
        .next { s with rdlog := s.rdlog ++ [(widx, slotWord widx s), (widx, slotWord widx s)] }

/-- 20_memory.md R54: byte k of a slot is bits [8k+7:8k] of its word, and the packed triple is R in [23:16], G in [15:8],
B in [7:0]. -/
def Obligations.ByteOrder : Prop :=
  (∀ (widx : BitVec 4) (k : Nat) (s : State), k < 4 →
    (slotByte widx k s).toNat = (slotWord widx s).toNat / 2 ^ (8 * k) % 256) ∧
  (∀ s : State, (txRgb s).toNat = 65536 * s.slot.r.toNat + 256 * s.slot.g.toNat + s.slot.b.toNat)

end Reads

section Writes

/-- 40_brightness_and_registers.md R91: key 0x12 is WR BRIGHT; idle, it stores the percent clamped to 0..100 whatever
BRIGHT.P held, and nothing else changes; busy, it only sets BUSYERR. -/
def Obligations.WrBrightStoresClampedPercent : Prop :=
  ∀ (w : Word) (s : State),
    decodeAccess 0x12#5 w = .wrBright w ∧
    (s.phase = .idle → ∃ p : BitVec 7, (p.toNat : Int) = max 0 (min 100 w.toInt) ∧
      exec (.wrBright w) s = .next { s with brightP := p }) ∧
    (s.phase ≠ .idle → exec (.wrBright w) s = .next { s with busyerr := true })

/-- 40_brightness_and_registers.md R95 to R98: keys 0x13 to 0x18 write the argument registers; idle, a write stores its
word (STEPS its low 16 bits) and nothing else changes; busy, it only sets BUSYERR. -/
def Obligations.ArgumentWritesStore : Prop :=
  ∀ (w : Word) (s : State),
    (decodeAccess 0x13#5 w = .wrChR w ∧ decodeAccess 0x14#5 w = .wrChG w ∧ decodeAccess 0x15#5 w = .wrChB w ∧
      decodeAccess 0x16#5 w = .wrDelay w ∧ decodeAccess 0x17#5 w = .wrCount w ∧ decodeAccess 0x18#5 w = .wrSteps w) ∧
    (s.phase = .idle →
      exec (.wrChR w) s = .next { s with chR := w } ∧
      exec (.wrChG w) s = .next { s with chG := w } ∧
      exec (.wrChB w) s = .next { s with chB := w } ∧
      exec (.wrDelay w) s = .next { s with delay := w } ∧
      exec (.wrCount w) s = .next { s with count := w } ∧
      exec (.wrSteps w) s = .next { s with steps := BitVec.ofNat 16 (w.toNat % 65536) }) ∧
    (s.phase ≠ .idle → ∀ i ∈ [Instr.wrChR w, .wrChG w, .wrChB w, .wrDelay w, .wrCount w, .wrSteps w],
      exec i s = .next { s with busyerr := true })

/-- 40_brightness_and_registers.md R93: key 0x11 is WR STATUS, which clears the sticky bits written as 1, busy or not, and
changes nothing else: a bit written as 0 stays, and no write sets one. -/
def Obligations.WrStatusClearsStickyBits : Prop :=
  ∀ (w : Word) (s : State),
    decodeAccess 0x11#5 w = .wrStatus w ∧
    exec (.wrStatus w) s = .next { s with
      txfail := if w.getLsbD 8 then false else s.txfail
      invarg := if w.getLsbD 9 then false else s.invarg
      busyerr := if w.getLsbD 10 then false else s.busyerr
      illcmd := if w.getLsbD 11 then false else s.illcmd }

/-- 40_brightness_and_registers.md R101, R102: a write to IDX, WAITCNT or a reserved slot changes nothing, busy or not. -/
def Obligations.IgnoredWritesChangeNothing : Prop :=
  ∀ (w : Word) (s : State),
    exec (.wrIdx w) s = .next s ∧
    exec (.wrWaitcnt w) s = .next s ∧
    exec (.wrW11 w) s = .next s ∧
    exec (.wrW12 w) s = .next s ∧
    exec (.wrW13 w) s = .next s ∧
    exec (.wrW14 w) s = .next s ∧
    exec (.wrW15 w) s = .next s

/-- 60_exceptions.md R212, 20_memory.md R57: while not IDLE, a write to CMD (whatever command), BRIGHT, CH_R, CH_G, CH_B,
DELAY, COUNT or STEPS is dropped and only sets BUSYERR. -/
def Obligations.BusyWritesAreDropped : Prop :=
  ∀ (s : State) (w : Word) (i : Instr), s.phase ≠ .idle →
    (i = .wrCmd w ∨ i = commandRow w ∨ i = .wrBright w ∨ i = .wrChR w ∨ i = .wrChG w ∨ i = .wrChB w ∨ i = .wrDelay w ∨
      i = .wrCount w ∨ i = .wrSteps w) →
    exec i s = .next { s with busyerr := true }

/-- A write while idle reaches its own slot only: the word read back is the one stored, and every other slot reads as
before (20_memory.md R52, R56; 40_brightness_and_registers.md R90, R91, R94 to R98, R101, R102). -/
def Obligations.WriteReachesItsSlotOnly : Prop :=
  ∀ (widx : BitVec 4) (w : Word) (s : State), s.phase = .idle → 2 ≤ widx.toNat →
    ∃ t, runEvent (busWrite widx w) s = .next t ∧
      (∀ j, j ≠ widx → slotWord j t = slotWord j s) ∧
      (widx.toNat = 2 → ((slotWord widx t).toNat : Int) = max 0 (min 100 w.toInt)) ∧
      (3 ≤ widx.toNat ∧ widx.toNat ≤ 7 → slotWord widx t = w) ∧
      (widx.toNat = 8 → (slotWord widx t).toNat = w.toNat % 65536) ∧
      (9 ≤ widx.toNat → slotWord widx t = slotWord widx s)

end Writes

section Commands

/-- 60_exceptions.md R213: idle, a command word that decodes as Illegal sets ILLCMD and nothing else changes. The three
illegal rows of the table are those words. -/
def Obligations.IllegalWordSetsIllcmd : Prop :=
  ∀ s : State, s.phase = .idle →
    (∀ w : Word, w.extractLsb' 4 28 ≠ 0#28 ∨ 0xB ≤ (w.extractLsb' 0 4).toNat →
      exec (.wrCmd w) s = .next { s with illcmd := true }) ∧
    exec .illegalOpB s = .next { s with illcmd := true } ∧
    (∀ lo, exec (.illegalOpCF lo) s = .next { s with illcmd := true }) ∧
    (∀ rsv op, exec (.illegalRsv rsv op) s = .next { s with illcmd := true })

/-- 42_fixed_colors.md R140 to R148: idle, with BRIGHT.P in 0..100 (10_state.md R27), each fixed colour issues one
transmit of its triple in phase SINGLE, an enabled channel being floor(255 * P / 100) in EXACT and in BINARY64 alike
(which the spec marks as derived from R121 and R125). Nothing else changes. -/
def Obligations.FixedColoursTransmit : Prop :=
  ∀ s : State, s.phase = .idle → s.brightP.toNat ≤ 100 →
    let v : Byte := BitVec.ofNat 8 (255 * s.brightP.toNat / 100)
    let sent : Rgb → State := fun c =>
      { s with
        phase := .single
        idx := 0#32
        waitcnt := 0#32
        slot := c
        txp := true
        txlog := s.txlog ++ [⟨c, .pending⟩] }
    exec .off s = .next (sent ⟨0#8, 0#8, 0#8⟩) ∧
    exec .blue s = .next (sent ⟨0#8, 0#8, v⟩) ∧
    exec .green s = .next (sent ⟨0#8, v, 0#8⟩) ∧
    exec .cyan s = .next (sent ⟨0#8, v, v⟩) ∧
    exec .red s = .next (sent ⟨v, 0#8, 0#8⟩) ∧
    exec .magenta s = .next (sent ⟨v, 0#8, v⟩) ∧
    exec .yellow s = .next (sent ⟨v, v, 0#8⟩) ∧
    exec .white s = .next (sent ⟨v, v, v⟩)

/-- 41_scale_and_transmit.md R128: idle, SET issues one transmit of the clamped and scaled channels in phase SINGLE.
Nothing else changes: it latches nothing (10_state.md R24). The scaler's values are the statements of section Scaler. -/
def Obligations.SetTransmitsScaledColour : Prop :=
  ∀ s : State, s.phase = .idle →
    let c : Rgb :=
      ⟨scale s.cfg.scaleArith (clampC s.chR) s.brightP,
        scale s.cfg.scaleArith (clampC s.chG) s.brightP,
        scale s.cfg.scaleArith (clampC s.chB) s.brightP⟩
    exec .set s = .next { s with
      phase := .single
      idx := 0#32
      waitcnt := 0#32
      slot := c
      txp := true
      txlog := s.txlog ++ [⟨c, .pending⟩] }

/-- 44_blink.md R180: idle, BLINK latches its operands; with COUNT not 0 it issues the scaled colour in BLINK_ON(0); with
COUNT = 0 it issues nothing and the block stays IDLE. -/
def Obligations.BlinkStarts : Prop :=
  ∀ s : State, s.phase = .idle →
    let latched : State :=
      { s with
        lcR := clampC s.chR
        lcG := clampC s.chG
        lcB := clampC s.chB
        lp := s.brightP
        ld := s.delay
        ln := s.count }
    let c : Rgb :=
      ⟨scale s.cfg.scaleArith (clampC s.chR) s.brightP,
        scale s.cfg.scaleArith (clampC s.chG) s.brightP,
        scale s.cfg.scaleArith (clampC s.chB) s.brightP⟩
    (s.count = 0#32 → exec .blink s = .next latched) ∧
    (s.count ≠ 0#32 → exec .blink s = .next { latched with
      phase := .blinkOn
      idx := 0#32
      waitcnt := 0#32
      slot := c
      txp := true
      txlog := s.txlog ++ [⟨c, .pending⟩] })

/-- 45_pulse.md R190 to R192: idle, PULSE with STEPS not 0 latches its operands, the ceiling being BRIGHT.P or 100 if that
is 0, and issues (0,0,0) in RAMP_UP(0); with STEPS = 0 it only sets INVARG. -/
def Obligations.PulseStarts : Prop :=
  ∀ s : State, s.phase = .idle →
    (s.steps = 0#16 → exec .pulse s = .next { s with invarg := true }) ∧
    (s.steps ≠ 0#16 → exec .pulse s = .next { s with
      lcR := clampC s.chR
      lcG := clampC s.chG
      lcB := clampC s.chB
      lp := s.brightP
      lpm := if s.brightP = 0#7 then 100#7 else s.brightP
      ld := s.delay
      ls := s.steps
      phase := .rampUp
      idx := 0#32
      waitcnt := 0#32
      slot := ⟨0#8, 0#8, 0#8⟩
      txp := true
      txlog := s.txlog ++ [⟨⟨0#8, 0#8, 0#8⟩, .pending⟩] })

/-- 60_exceptions.md R216: the checks of a CMD write, in order; the first that applies is the only condition raised. A
command that issues a transmit leaves the block busy with TXP = 1 when the event ends; the others leave it IDLE
(40_brightness_and_registers.md R99, 70_reset_and_hazards.md R251). -/
def Obligations.CmdWriteChecksInOrder : Prop :=
  ∀ (w : Word) (s : State),
    ∃ t, exec (.wrCmd w) s = .next t ∧ t.txfail = s.txfail ∧
      (s.phase ≠ .idle →
        t.busyerr = true ∧ t.illcmd = s.illcmd ∧ t.invarg = s.invarg) ∧
      (s.phase = .idle → 11 ≤ w.toNat →
        t.busyerr = s.busyerr ∧ t.illcmd = true ∧ t.invarg = s.invarg) ∧
      (s.phase = .idle → w.toNat = 10 → s.steps = 0#16 →
        t.busyerr = s.busyerr ∧ t.illcmd = s.illcmd ∧ t.invarg = true) ∧
      (s.phase = .idle → w.toNat ≤ 10 → (w.toNat = 10 → s.steps ≠ 0#16) →
        t.busyerr = s.busyerr ∧ t.illcmd = s.illcmd ∧ t.invarg = s.invarg) ∧
      (s.phase = .idle → w.toNat ≤ 8 → t.phase = .single ∧ t.txp = true) ∧
      (s.phase = .idle → w.toNat = 9 → s.count ≠ 0#32 → t.phase = .blinkOn ∧ t.txp = true) ∧
      (s.phase = .idle → w.toNat = 10 → s.steps ≠ 0#16 → t.phase = .rampUp ∧ t.txp = true) ∧
      (s.phase = .idle → (w.toNat = 9 ∧ s.count = 0#32) ∨ (w.toNat = 10 ∧ s.steps = 0#16) ∨ 11 ≤ w.toNat →
        t.phase = .idle ∧ t.txp = s.txp ∧ t.txlog = s.txlog)

/-- The pseudo-instructions SETRGB and SETBRIGHT (30_encoding.md R80, 93_implementation_defined.md U5). SETRGB, from idle,
issues one transmit of the clamped and scaled colour it names, leaves that colour in the argument registers and changes
nothing else. SETBRIGHT of an integer percent of 32 bits stores it clamped to 0..100; of a percent that is no integer it
is refused (log 14). -/
def Obligations.PseudoInstructions : Prop :=
  ∀ s : State, s.phase = .idle →
    (∀ r g b : Word,
      let c : Rgb :=
        ⟨scale s.cfg.scaleArith (clampC r) s.brightP,
          scale s.cfg.scaleArith (clampC g) s.brightP,
          scale s.cfg.scaleArith (clampC b) s.brightP⟩
      ∃ es, expand (.setRgb r g b) = .ok es ∧ es.length = 4 ∧
        runEvents es s = .next { s with
          chR := r
          chG := g
          chB := b
          phase := .single
          idx := 0#32
          waitcnt := 0#32
          slot := c
          txp := true
          txlog := s.txlog ++ [⟨c, .pending⟩] }) ∧
    (∀ (p : Int) (den : Nat), 0 < den →
      (-2 ^ 31 ≤ p → p < 2 ^ 31 → ∃ es q, expand (.setBright (p * den) den) = .ok es ∧
        runEvents es s = .next { s with brightP := q } ∧ (q.toNat : Int) = max 0 (min 100 p)) ∧
      (¬ (den : Int) ∣ p → expand (.setBright p den) = .error .percentNotInteger))

end Commands

section Scaler

/-- 41_scale_and_transmit.md R120. -/
def Obligations.ChannelClamp : Prop :=
  ∀ v : Word, ((clampC v).toNat : Int) = max 0 (min 255 v.toInt)

/-- 41_scale_and_transmit.md R121, R123 in EXACT: the floor of the real product, in the source's form. -/
def Obligations.ExactScalerIsFloor : Prop :=
  (∀ (c : Byte) (p : BitVec 7), p.toNat ≤ 100 →
    ((scale .exact c p).toNat : ℤ) = ⌊(c.toNat : ℚ) * ((p.toNat : ℚ) / 100)⌋) ∧
  (∀ (c : Byte) (pm : BitVec 7) (i : BitVec 32) (n : BitVec 16),
    pm.toNat ≤ 100 → 1 ≤ n.toNat → i.toNat ≤ n.toNat →
    ((rampScale .exact c pm i n).toNat : ℤ) =
      ⌊(c.toNat : ℚ) * ((pm.toNat : ℚ) / 100 * ((i.toNat : ℚ) / n.toNat))⌋)

/-- 41_scale_and_transmit.md R124, which the spec marks as derived from R121 and R123: the range and the basic laws of the
scaler, in both arithmetic modes (the arithmetic of BINARY64 is log 10). -/
def Obligations.ScalerLaws : Prop :=
  ∀ a : ScaleArith,
    (∀ c p, c ≤ 255 → p ≤ 100 →
      scaleNat a c p ≤ c ∧ scaleNat a c 0 = 0 ∧ scaleNat a c 100 = c ∧ scaleNat a 0 p = 0) ∧
    (∀ c c' p, c ≤ c' → c' ≤ 255 → p ≤ 100 → scaleNat a c p ≤ scaleNat a c' p) ∧
    (∀ c p p', c ≤ 255 → p ≤ p' → p' ≤ 100 → scaleNat a c p ≤ scaleNat a c p') ∧
    (∀ c pm i n, c ≤ 255 → 1 ≤ pm → pm ≤ 100 → 1 ≤ n → n ≤ 65535 → i ≤ n →
      rampScaleNat a c pm i n ≤ c ∧ rampScaleNat a c pm 0 n = 0 ∧ rampScaleNat a c pm n n = scaleNat a c pm)

/-- 41_scale_and_transmit.md R125: the complete list of the (P, c) at which the two modes of `scale` differ, and by 1. The
spec marks it as derived by computation (the arithmetic of BINARY64 is log 10). -/
def Obligations.ModesDifferAtTwelvePairs : Prop :=
  ∀ c p, c ≤ 255 → p ≤ 100 →
    scaleNat .exact c p =
      scaleNat .binary64 c p +
        if (p, c) ∈ [(29, 100), (29, 200), (35, 180), (57, 100), (57, 200), (58, 50), (58, 100), (58, 200), (70, 90),
          (70, 170), (70, 180), (82, 150)] then 1 else 0

/-- 41_scale_and_transmit.md R125 for the ramp scaler: the modes agree, or BINARY64 is one lower and the exact quotient is
an integer. The spec marks it as derived (the arithmetic of BINARY64 is log 10). -/
def Obligations.RampModesDifferByOne : Prop :=
  ∀ c pm i n, c ≤ 255 → 1 ≤ pm → pm ≤ 100 → 1 ≤ n → n ≤ 65535 → i ≤ n →
    rampScaleNat .binary64 c pm i n = rampScaleNat .exact c pm i n ∨
    (rampScaleNat .binary64 c pm i n + 1 = rampScaleNat .exact c pm i n ∧ c * pm * i % (100 * n) = 0)

/-- 00_scope.md R10: RNE64 gives the nearest binary64 value, ties to even, on the range the scaler uses (log 10: what
binary64 is comes from general knowledge). -/
def Obligations.RoundsToNearestEven : Prop :=
  ∀ n d : Nat, 0 < d → n < 2 ^ 53 * d →
    let x := rne64 n d
    x.man ≤ 2 ^ 53 ∧ x.scale ≤ 1074 ∧
    ∀ m k : Nat, m < 2 ^ 53 → k ≤ 1074 →
      |(n : ℚ) / d - x.man / 2 ^ x.scale| ≤ |(n : ℚ) / d - m / 2 ^ k| ∧
      (|(n : ℚ) / d - x.man / 2 ^ x.scale| = |(n : ℚ) / d - m / 2 ^ k| → (x.man : ℚ) / 2 ^ x.scale ≠ m / 2 ^ k →
        x.man % 2 = 0)

end Scaler

section EffectTimer

/-- 43_effect_timer.md R163: a tick in a waiting phase with TXP = 0 and WAITCNT > 0 takes one from WAITCNT, and the last
one ends the wait (`advance`, R166); any other tick changes nothing. -/
def Obligations.CountedTick : Prop :=
  ∀ s : State,
    let inWait : Prop :=
      (s.phase = .blinkOn ∨ s.phase = .blinkOff ∨ s.phase = .rampUp ∨ s.phase = .rampDown) ∧ s.txp = false
    (inWait → 2 ≤ s.waitcnt.toNat →
      runEvent .tick s = .next { s with waitcnt := BitVec.ofNat 32 (s.waitcnt.toNat - 1) }) ∧
    (inWait → s.waitcnt.toNat = 1 → runEvent .tick s = .next (advance { s with waitcnt := 0#32 })) ∧
    (¬ inWait ∨ s.waitcnt.toNat = 0 → runEvent .tick s = .next s)

/-- 43_effect_timer.md R164: a tick at any other time changes nothing, so it is not stored and counts toward no wait. -/
def Obligations.OtherTicksDiscarded : Prop :=
  ∀ s : State,
    s.phase = .idle ∨ s.phase = .single ∨ s.phase = .finalOff ∨ s.phase = .resetOff ∨ s.txp = true ∨ s.waitcnt = 0#32 →
    runEvent .tick s = .next s

/-- 41_scale_and_transmit.md R127 with 43_effect_timer.md R161, R162, R165: an answer OK clears TXP, makes the LED known
and the request's result OK; SINGLE, FINAL_OFF and RESET_OFF finish; a waiting phase starts its wait of LD ticks, or with
LD = 0 ends it at once (`advance`, R166). -/
def Obligations.AnswerOk : Prop :=
  ∀ (s : State) (log : List TxEntry) (c : Rgb), s.txp = true → s.txlog = log ++ [⟨c, .pending⟩] →
    let answered : State := { s with txp := false, led := .known s.slot, txlog := log ++ [⟨c, .ok⟩] }
    (s.phase = .single ∨ s.phase = .finalOff ∨ s.phase = .resetOff →
      runEvent .txOk s = .next { answered with phase := .idle, idx := 0#32, waitcnt := 0#32 }) ∧
    (s.phase = .blinkOn ∨ s.phase = .blinkOff ∨ s.phase = .rampUp ∨ s.phase = .rampDown →
      (s.ld ≠ 0#32 → runEvent .txOk s = .next { answered with waitcnt := s.ld }) ∧
      (s.ld = 0#32 → runEvent .txOk s = .next (advance answered)))

/-- 60_exceptions.md R211: an answer FAIL in any phase ends the running operation: no further transmit, no retry; SLOT,
BRIGHT.P and the argument registers stay. -/
def Obligations.AnswerFail : Prop :=
  ∀ (s : State) (log : List TxEntry) (c : Rgb) (r : TxResult), s.txp = true → s.txlog = log ++ [⟨c, r⟩] →
    runEvent .txFail s = .next { s with
      txp := false
      txfail := true
      led := .unknown
      txlog := log ++ [⟨c, .fail⟩]
      phase := .idle
      idx := 0#32
      waitcnt := 0#32 }

/-- 44_blink.md R182, R183: the end of a blink phase's wait, with every LP and in both arithmetic modes. -/
def Obligations.BlinkAdvances : Prop :=
  ∀ s : State,
    let c : Rgb :=
      ⟨scale s.cfg.scaleArith s.lcR s.lp, scale s.cfg.scaleArith s.lcG s.lp, scale s.cfg.scaleArith s.lcB s.lp⟩
    (s.phase = .blinkOn →
      advance s = { s with
        phase := .blinkOff
        waitcnt := 0#32
        slot := ⟨0#8, 0#8, 0#8⟩
        txp := true
        txlog := s.txlog ++ [⟨⟨0#8, 0#8, 0#8⟩, .pending⟩] }) ∧
    (s.phase = .blinkOff → s.idx.toNat + 1 < s.ln.toNat →
      advance s = { s with
        phase := .blinkOn
        idx := BitVec.ofNat 32 (s.idx.toNat + 1)
        waitcnt := 0#32
        slot := c
        txp := true
        txlog := s.txlog ++ [⟨c, .pending⟩] }) ∧
    (s.phase = .blinkOff → s.ln.toNat ≤ s.idx.toNat + 1 →
      advance s = { s with phase := .idle, idx := 0#32, waitcnt := 0#32 })

/-- 45_pulse.md R194, R195: the end of a ramp level's wait, with every LP and in both arithmetic modes. -/
def Obligations.PulseAdvances : Prop :=
  ∀ s : State,
    let level : Nat → Rgb := fun i =>
      ⟨rampScale s.cfg.scaleArith s.lcR s.lpm (BitVec.ofNat 32 i) s.ls,
        rampScale s.cfg.scaleArith s.lcG s.lpm (BitVec.ofNat 32 i) s.ls,
        rampScale s.cfg.scaleArith s.lcB s.lpm (BitVec.ofNat 32 i) s.ls⟩
    let entered : Phase → Nat → Rgb → State := fun p i c =>
      { s with
        phase := p
        idx := BitVec.ofNat 32 i
        waitcnt := 0#32
        slot := c
        txp := true
        txlog := s.txlog ++ [⟨c, .pending⟩] }
    (s.phase = .rampUp → s.idx.toNat < s.ls.toNat →
      advance s = entered .rampUp (s.idx.toNat + 1) (level (s.idx.toNat + 1))) ∧
    (s.phase = .rampUp → s.ls.toNat ≤ s.idx.toNat →
      advance s = entered .rampDown s.ls.toNat (level s.ls.toNat)) ∧
    (s.phase = .rampDown → 0 < s.idx.toNat →
      advance s = entered .rampDown (s.idx.toNat - 1) (level (s.idx.toNat - 1))) ∧
    (s.phase = .rampDown → s.idx.toNat = 0 →
      advance s = entered .finalOff 0 ⟨0#8, 0#8, 0#8⟩)

/-- 70_reset_and_hazards.md R240 to R242: a Reset in any state gives every element its reset value and issues the
reset-off; TXLOG is kept, with any PENDING entry, and gains the reset-off's. The events to come and the words read are not
the block's (log 9). -/
def Obligations.ResetEvent : Prop :=
  ∀ s : State, ∃ p : BitVec 7, (p.toNat : Int) = max 0 (min 100 s.cfg.initPct.toInt) ∧
    runEvent .reset s = .next
      { cfg := s.cfg
        inputs := s.inputs
        rdlog := s.rdlog
        brightP := p
        chR := 0#32
        chG := 0#32
        chB := 0#32
        delay := 0#32
        count := 0#32
        steps := 0#16
        txfail := false
        invarg := false
        busyerr := false
        illcmd := false
        phase := .resetOff
        txp := true
        idx := 0#32
        waitcnt := 0#32
        lcR := 0#8
        lcG := 0#8
        lcB := 0#8
        lp := p
        lpm := 100#7
        ld := 0#32
        ln := 0#32
        ls := 0#16
        slot := ⟨0#8, 0#8, 0#8⟩
        txlog := s.txlog ++ [⟨⟨0#8, 0#8, 0#8⟩, .pending⟩]
        led := .unknown }

/-- 70_reset_and_hazards.md R240, R241 and 95_test_vectors.md L2.10: the machine right after reset. -/
def Obligations.ResetState : Prop :=
  statusWord State.reset = 0x0000001F#32 ∧
  statusWord (State.powerUp { defaultConfig with scaleArith := .binary64 } []) = 0x0001001F#32 ∧
  State.reset.brightP = 20#7 ∧
  (State.powerUp { defaultConfig with initPct := 150#32 } []).brightP = 100#7 ∧
  (State.powerUp { defaultConfig with initPct := 0xFFFFFFFD#32 } []).brightP = 0#7 ∧
  (∀ j : BitVec 4, 3 ≤ j.toNat → slotWord j State.reset = 0#32) ∧
  State.reset.txlog = [⟨⟨0#8, 0#8, 0#8⟩, .pending⟩] ∧ State.reset.led = .unknown

/-- 44_blink.md R181, R185, 43_effect_timer.md R169, which the spec marks as derived from R180 to R183: a BLINK accepted
with COUNT not 0 and answered OK throughout, with any number of ticks before each answer, passes through its 2 * COUNT
phases and is back in IDLE after exactly 2 * COUNT * DELAY counted ticks. TXLOG gains 2 * COUNT entries, all OK,
alternating the scaled colour and (0,0,0); SLOT and LED are off; nothing else changes but the latches. In a state with
BRIGHT.P above 100, which no run reaches, the triples are the values of log 11. -/
def Obligations.BlinkRunsToTheEnd : Prop :=
  ∀ (s : State) (ms : List Nat), s.phase = .idle → s.count ≠ 0#32 → ms.length = 2 * s.count.toNat →
    runEvents (busWrite 0#4 0x9#32 :: phasesEvents s.delay.toNat ms) s = .next { s with
      lcR := clampC s.chR
      lcG := clampC s.chG
      lcB := clampC s.chB
      lp := s.brightP
      ld := s.delay
      ln := s.count
      phase := .idle
      idx := 0#32
      waitcnt := 0#32
      txp := false
      slot := ⟨0#8, 0#8, 0#8⟩
      led := .known ⟨0#8, 0#8, 0#8⟩
      txlog := s.txlog ++ (List.replicate s.count.toNat
        [okEntry (scale3 s.cfg.scaleArith (requestedColour s) s.brightP), okEntry ⟨0#8, 0#8, 0#8⟩]).flatten }

/-- 43_effect_timer.md R169 (which the spec marks as derived), R171: until the last of those events the block is busy. -/
def Obligations.BlinkBusyUntilTheEnd : Prop :=
  ∀ (s : State) (ms : List Nat) (n : Nat), s.phase = .idle → s.count ≠ 0#32 → ms.length = 2 * s.count.toNat →
    n < (phasesEvents s.delay.toNat ms).length →
    ∃ t, runEvents (busWrite 0#4 0x9#32 :: (phasesEvents s.delay.toNat ms).take n) s = .next t ∧ t.phase ≠ .idle ∧
      t.brightP = s.brightP

/-- 45_pulse.md R193, R196, R197, 43_effect_timer.md R169, which the spec marks as derived but for R196: a PULSE accepted
with STEPS not 0 and answered OK throughout, with any number of ticks before each answer, passes through its 2 * (STEPS +
1) levels and FINAL_OFF and is back in IDLE after exactly 2 * (STEPS + 1) * DELAY counted ticks. TXLOG gains the levels 0
to STEPS, STEPS to 0 and (0,0,0), all OK; SLOT and LED are off; BRIGHT.P and all else but the latches is unchanged. In a
state with BRIGHT.P above 100, which no run reaches, the triples are the values of log 11. -/
def Obligations.PulseRunsToTheEnd : Prop :=
  ∀ (s : State) (ms : List Nat) (last : Nat), s.phase = .idle → s.steps ≠ 0#16 →
    ms.length = 2 * (s.steps.toNat + 1) →
    runEvents (busWrite 0#4 0xA#32 :: (phasesEvents s.delay.toNat ms ++ phaseEvents 0 last)) s = .next { s with
      lcR := clampC s.chR
      lcG := clampC s.chG
      lcB := clampC s.chB
      lp := s.brightP
      lpm := rampCeiling s.brightP
      ld := s.delay
      ls := s.steps
      phase := .idle
      idx := 0#32
      waitcnt := 0#32
      txp := false
      slot := ⟨0#8, 0#8, 0#8⟩
      led := .known ⟨0#8, 0#8, 0#8⟩
      txlog := s.txlog ++ ((List.range (s.steps.toNat + 1)).map (fun i => okEntry (pulseLevel s i)) ++
        (List.range (s.steps.toNat + 1)).reverse.map (fun i => okEntry (pulseLevel s i)) ++
        [okEntry ⟨0#8, 0#8, 0#8⟩]) }

/-- 70_reset_and_hazards.md R252: with no answer and no Reset, an outstanding transmit stays outstanding and the block
stays in its phase, whatever the host and the tick source do. -/
def Obligations.SilentPrimitiveHangs : Prop :=
  ∀ (s : State) (es : List Event), s.txp = true → s.phase ≠ .idle →
    (∀ e ∈ es, e = .tick ∨ ∃ key data, e = .access key data) →
    ∃ t, runEvents es s = .next t ∧ t.txp = true ∧ t.phase = s.phase ∧ t.idx = s.idx ∧ t.slot = s.slot ∧
      t.txlog = s.txlog ∧ t.led = s.led

/-- 70_reset_and_hazards.md R253: with no tick and no Reset, a pending wait stays pending, whatever the host does. -/
def Obligations.StoppedTickHangs : Prop :=
  ∀ (s : State) (es : List Event), s.txp = false → s.phase ≠ .idle → (∀ e ∈ es, ∃ key data, e = .access key data) →
    ∃ t, runEvents es s = .next t ∧ t.txp = false ∧ t.phase = s.phase ∧ t.idx = s.idx ∧ t.waitcnt = s.waitcnt ∧
      t.slot = s.slot ∧ t.txlog = s.txlog ∧ t.led = s.led

end EffectTimer

section Machine

/-- The invariants of Safety.lean hold right after the first Reset, in every configuration and with any events to come. -/
def Obligations.ResetMeetsInv : Prop :=
  Inv State.reset ∧ ∀ (cfg : Config) (es : List Event), Inv (State.powerUp cfg es)

/-- 10_state.md R24, R25, R27, R29, R32, R33, R34, R40: every step from a state that meets the invariants gives one that
meets them. -/
def Obligations.StepKeepsInv : Prop :=
  ∀ s t : State, Inv s → step s = .next t → Inv t

/-- 10_state.md R33, which the spec marks as derived from its event rules: (a) to (d) hold in every reachable state: after
any number of steps from power-up, in any configuration, with any events in any order. -/
def Obligations.ReachableStatesMeetR33 : Prop :=
  ∀ (cfg : Config) (es : List Event) (n : Nat) (s : State),
    Host.Core.run Sys2Proof.core n (State.powerUp cfg es) = .next s →
    (s.phase = .idle → s.txp = false ∧ s.idx = 0#32 ∧ s.waitcnt = 0#32) ∧
    (0 < s.waitcnt.toNat → s.txp = false ∧
      (s.phase = .blinkOn ∨ s.phase = .blinkOff ∨ s.phase = .rampUp ∨ s.phase = .rampDown)) ∧
    (s.txp = true → s.phase ≠ .idle) ∧
    (s.phase = .blinkOn ∨ s.phase = .blinkOff ∨ s.phase = .rampUp ∨ s.phase = .rampDown → s.txp = false →
      0 < s.waitcnt.toNat)

/-- 10_state.md R27, which the spec marks as derived from R26 and R91: BRIGHT.P holds 0..100 in every reachable state. -/
def Obligations.ReachableBrightInRange : Prop :=
  ∀ (cfg : Config) (es : List Event) (n : Nat) (s : State),
    Host.Core.run Sys2Proof.core n (State.powerUp cfg es) = .next s → s.brightP.toNat ≤ 100

/-- 10_state.md R28, 60_exceptions.md R210 to R213: a step sets a sticky bit only by its own condition. -/
def Obligations.StickyBitsSetByTheirCondition : Prop :=
  ∀ s t : State, step s = .next t →
    (s.txfail = false → t.txfail = true → nextEvent s = some .txFail) ∧
    (s.invarg = false → t.invarg = true →
      nextInstr s = some (.wrCmd 0xA#32) ∧ s.phase = .idle ∧ s.steps = 0#16) ∧
    (s.busyerr = false → t.busyerr = true →
      s.phase ≠ .idle ∧ ∃ i, nextInstr s = some i ∧ droppedWhenBusy i = true) ∧
    (s.illcmd = false → t.illcmd = true →
      s.phase = .idle ∧ ∃ w, nextInstr s = some (.wrCmd w) ∧ 11 ≤ w.toNat)

/-- 10_state.md R28, 60_exceptions.md R220: a step clears a sticky bit only by a WR STATUS with its bit 1, or by Reset. -/
def Obligations.StickyBitsClearedByHostOrReset : Prop :=
  ∀ (s t : State) (c : Condition), step s = .next t → sticky c s = true → sticky c t = false →
    nextEvent s = some .reset ∨ ∃ w : Word, nextInstr s = some (.wrStatus w) ∧ w.getLsbD (conditionCode c) = true

/-- 10_state.md R26, 45_pulse.md R197: only a WR BRIGHT taken while idle, or Reset, changes BRIGHT.P: no command, tick or
answer does. -/
def Obligations.OnlyHostAndResetWriteBright : Prop :=
  ∀ s t : State, step s = .next t → t.brightP ≠ s.brightP →
    nextEvent s = some .reset ∨ ∃ w, nextInstr s = some (.wrBright w) ∧ s.phase = .idle

/-- 10_state.md R21, R24: only its own write, taken while idle, or Reset changes an argument register: no command does. -/
def Obligations.OnlyHostAndResetWriteArguments : Prop :=
  ∀ s t : State, step s = .next t → nextEvent s ≠ some .reset →
    (t.chR ≠ s.chR → s.phase = .idle ∧ nextInstr s = some (.wrChR t.chR)) ∧
    (t.chG ≠ s.chG → s.phase = .idle ∧ nextInstr s = some (.wrChG t.chG)) ∧
    (t.chB ≠ s.chB → s.phase = .idle ∧ nextInstr s = some (.wrChB t.chB)) ∧
    (t.delay ≠ s.delay → s.phase = .idle ∧ nextInstr s = some (.wrDelay t.delay)) ∧
    (t.count ≠ s.count → s.phase = .idle ∧ nextInstr s = some (.wrCount t.count)) ∧
    (t.steps ≠ s.steps → s.phase = .idle ∧ ∃ w, nextInstr s = some (.wrSteps w) ∧ t.steps.toNat = w.toNat % 65536)

/-- 10_state.md R41: the configuration does not change while the block runs. Holding it in State is log 1. -/
def Obligations.ConfigurationIsConstant : Prop :=
  ∀ (s t : State) (n : Nat), Host.Core.run Sys2Proof.core n s = .next t → t.cfg = s.cfg

/-- 10_state.md R34, 20_memory.md R64: SLOT changes only with a transmit request, which appends its triple to TXLOG and
sets TXP; a step issues at most one, and but for Reset only when none is outstanding or the outstanding one is answered in
it. The triples already in TXLOG never change. -/
def Obligations.SlotChangesOnlyByTransmit : Prop :=
  ∀ s t : State, step s = .next t →
    (t.slot = s.slot ∧ t.txlog.map (·.rgb) = s.txlog.map (·.rgb)) ∨
    (t.txp = true ∧ t.txlog.map (·.rgb) = s.txlog.map (·.rgb) ++ [t.slot] ∧
      t.txlog.getLast? = some ⟨t.slot, .pending⟩ ∧
      (Inv s → s.txp = false ∨ nextEvent s = some .txOk ∨ nextEvent s = some .reset))

/-- 43_effect_timer.md R171, 10_state.md R31: a busy block becomes IDLE only by a failed transmit, by the answer of a
phase without a wait, or at the end of the wait of a blink's last off phase. -/
def Obligations.NothingCancelsAnEffect : Prop :=
  ∀ s t : State, step s = .next t → s.phase ≠ .idle → t.phase = .idle →
    nextEvent s = some .txFail ∨
    (nextEvent s = some .txOk ∧ (s.phase = .single ∨ s.phase = .finalOff ∨ s.phase = .resetOff)) ∨
    (s.phase = .blinkOff ∧ s.ln.toNat ≤ s.idx.toNat + 1 ∧
      ((nextEvent s = some .txOk ∧ s.ld = 0#32) ∨ (nextEvent s = some .tick ∧ s.waitcnt = 1#32)))

end Machine
end

