-- ==== Sys2Proof/Laws/Encoding.lean ====
section
/-! SUPPORT. The fields of a command word, the byte lanes of a word, and the two halves of an access key. -/

namespace Sys2Proof

/-- The reserved field of an assembled command word. -/
theorem command_rsv (rsv : BitVec 28) (op : BitVec 4) : (rsv ++ op : Word).extractLsb' 4 28 = rsv := by
  apply BitVec.eq_of_getLsbD_eq
  intro i hi
  have := BitVec.getLsbD_append (x := rsv) (y := op) (i := 4 + i)
  simpa [hi] using this

/-- The OP field of an assembled command word. -/
theorem command_op (rsv : BitVec 28) (op : BitVec 4) : (rsv ++ op : Word).extractLsb' 0 4 = op := by
  apply BitVec.eq_of_getLsbD_eq
  intro i hi
  have := BitVec.getLsbD_append (x := rsv) (y := op) (i := i)
  simpa [hi] using this

/-- A word with a reserved bit set is a word of the row ILLEGAL_RSV (30_encoding.md R71). -/
theorem commandRow_reserved (rsv : BitVec 28) (op : BitVec 4) (h : rsv ≠ 0#28) :
    commandRow (rsv ++ op) = .illegalRsv rsv op := by
  rw [commandRow, command_rsv, command_op, if_pos h]

/-- The word of its own byte lanes. -/
theorem bytesWord_lanes (w : Word) :
    bytesWord (w.extractLsb' 0 8) (w.extractLsb' 8 8) (w.extractLsb' 16 8) (w.extractLsb' 24 8) = w := by
  apply BitVec.eq_of_toNat_eq
  simp [bytesWord, Nat.shiftRight_eq_div_pow]
  omega

/-- The byte lanes of an assembled word. -/
theorem wordBytes_bytesWord (b0 b1 b2 b3 : Byte) : wordBytes (bytesWord b0 b1 b2 b3) = [b0, b1, b2, b3] := by
  have h0 := b0.isLt
  have h1 := b1.isLt
  have h2 := b2.isLt
  have h3 := b3.isLt
  simp only [wordBytes, bytesWord, List.cons.injEq, and_true]
  refine ⟨?_, ?_, ?_, ?_⟩ <;>
  · apply BitVec.eq_of_toNat_eq
    simp only [BitVec.extractLsb'_toNat, BitVec.toNat_ofNat, Nat.shiftRight_eq_div_pow]
    omega

/-- The access with WE = 1 writes the slot (30_encoding.md R75). -/
theorem decodeAccess_write (widx : BitVec 4) (data : Word) :
    decodeAccess (1#1 ++ widx) data = writeRow widx data := by
  have hw : (1#1 ++ widx).getLsbD 4 = true := by revert widx; decide
  have hi : (1#1 ++ widx).extractLsb' 0 4 = widx := by revert widx; decide
  rw [decodeAccess, hw, hi, if_pos rfl]

/-- The access with WE = 0 reads the slot, whatever its data word (30_encoding.md R75). -/
theorem decodeAccess_read (widx : BitVec 4) (data : Word) :
    decodeAccess (0#1 ++ widx) data = readRow widx := by
  have hw : (0#1 ++ widx).getLsbD 4 = false := by revert widx; decide
  have hi : (0#1 ++ widx).extractLsb' 0 4 = widx := by revert widx; decide
  rw [decodeAccess, hw, hi, if_neg Bool.false_ne_true]

end Sys2Proof
end

