-- ==== Sys2Proof/Laws/State.lean ====
section
/-! SUPPORT. What each shared operation does to each field: one lemma per field per operation. -/

namespace Sys2Proof.Machine

section raiseCondition

variable (c : Condition) (s : State)

@[simp] theorem raiseCondition_cfg : (raiseCondition c s).cfg = s.cfg := rfl
@[simp] theorem raiseCondition_inputs : (raiseCondition c s).inputs = s.inputs := rfl
@[simp] theorem raiseCondition_rdlog : (raiseCondition c s).rdlog = s.rdlog := rfl
@[simp] theorem raiseCondition_brightP : (raiseCondition c s).brightP = s.brightP := rfl
@[simp] theorem raiseCondition_chR : (raiseCondition c s).chR = s.chR := rfl
@[simp] theorem raiseCondition_chG : (raiseCondition c s).chG = s.chG := rfl
@[simp] theorem raiseCondition_chB : (raiseCondition c s).chB = s.chB := rfl
@[simp] theorem raiseCondition_delay : (raiseCondition c s).delay = s.delay := rfl
@[simp] theorem raiseCondition_count : (raiseCondition c s).count = s.count := rfl
@[simp] theorem raiseCondition_steps : (raiseCondition c s).steps = s.steps := rfl
@[simp] theorem raiseCondition_txfail : (raiseCondition c s).txfail = (s.txfail || c == .transmitFailure) := rfl
@[simp] theorem raiseCondition_invarg : (raiseCondition c s).invarg = (s.invarg || c == .invalidArgument) := rfl
@[simp] theorem raiseCondition_busyerr : (raiseCondition c s).busyerr = (s.busyerr || c == .busy) := rfl
@[simp] theorem raiseCondition_illcmd : (raiseCondition c s).illcmd = (s.illcmd || c == .illegalCommand) := rfl
@[simp] theorem raiseCondition_phase : (raiseCondition c s).phase = s.phase := rfl
@[simp] theorem raiseCondition_txp : (raiseCondition c s).txp = s.txp := rfl
@[simp] theorem raiseCondition_idx : (raiseCondition c s).idx = s.idx := rfl
@[simp] theorem raiseCondition_waitcnt : (raiseCondition c s).waitcnt = s.waitcnt := rfl
@[simp] theorem raiseCondition_lcR : (raiseCondition c s).lcR = s.lcR := rfl
@[simp] theorem raiseCondition_lcG : (raiseCondition c s).lcG = s.lcG := rfl
@[simp] theorem raiseCondition_lcB : (raiseCondition c s).lcB = s.lcB := rfl
@[simp] theorem raiseCondition_lp : (raiseCondition c s).lp = s.lp := rfl
@[simp] theorem raiseCondition_lpm : (raiseCondition c s).lpm = s.lpm := rfl
@[simp] theorem raiseCondition_ld : (raiseCondition c s).ld = s.ld := rfl
@[simp] theorem raiseCondition_ln : (raiseCondition c s).ln = s.ln := rfl
@[simp] theorem raiseCondition_ls : (raiseCondition c s).ls = s.ls := rfl
@[simp] theorem raiseCondition_slot : (raiseCondition c s).slot = s.slot := rfl
@[simp] theorem raiseCondition_txlog : (raiseCondition c s).txlog = s.txlog := rfl
@[simp] theorem raiseCondition_led : (raiseCondition c s).led = s.led := rfl

end raiseCondition

section clearSticky

variable (w : Word) (s : State)

@[simp] theorem clearSticky_cfg : (clearSticky w s).cfg = s.cfg := rfl
@[simp] theorem clearSticky_inputs : (clearSticky w s).inputs = s.inputs := rfl
@[simp] theorem clearSticky_rdlog : (clearSticky w s).rdlog = s.rdlog := rfl
@[simp] theorem clearSticky_brightP : (clearSticky w s).brightP = s.brightP := rfl
@[simp] theorem clearSticky_chR : (clearSticky w s).chR = s.chR := rfl
@[simp] theorem clearSticky_chG : (clearSticky w s).chG = s.chG := rfl
@[simp] theorem clearSticky_chB : (clearSticky w s).chB = s.chB := rfl
@[simp] theorem clearSticky_delay : (clearSticky w s).delay = s.delay := rfl
@[simp] theorem clearSticky_count : (clearSticky w s).count = s.count := rfl
@[simp] theorem clearSticky_steps : (clearSticky w s).steps = s.steps := rfl
@[simp] theorem clearSticky_txfail : (clearSticky w s).txfail = (s.txfail && !w.getLsbD 8) := rfl
@[simp] theorem clearSticky_invarg : (clearSticky w s).invarg = (s.invarg && !w.getLsbD 9) := rfl
@[simp] theorem clearSticky_busyerr : (clearSticky w s).busyerr = (s.busyerr && !w.getLsbD 10) := rfl
@[simp] theorem clearSticky_illcmd : (clearSticky w s).illcmd = (s.illcmd && !w.getLsbD 11) := rfl
@[simp] theorem clearSticky_phase : (clearSticky w s).phase = s.phase := rfl
@[simp] theorem clearSticky_txp : (clearSticky w s).txp = s.txp := rfl
@[simp] theorem clearSticky_idx : (clearSticky w s).idx = s.idx := rfl
@[simp] theorem clearSticky_waitcnt : (clearSticky w s).waitcnt = s.waitcnt := rfl
@[simp] theorem clearSticky_lcR : (clearSticky w s).lcR = s.lcR := rfl
@[simp] theorem clearSticky_lcG : (clearSticky w s).lcG = s.lcG := rfl
@[simp] theorem clearSticky_lcB : (clearSticky w s).lcB = s.lcB := rfl
@[simp] theorem clearSticky_lp : (clearSticky w s).lp = s.lp := rfl
@[simp] theorem clearSticky_lpm : (clearSticky w s).lpm = s.lpm := rfl
@[simp] theorem clearSticky_ld : (clearSticky w s).ld = s.ld := rfl
@[simp] theorem clearSticky_ln : (clearSticky w s).ln = s.ln := rfl
@[simp] theorem clearSticky_ls : (clearSticky w s).ls = s.ls := rfl
@[simp] theorem clearSticky_slot : (clearSticky w s).slot = s.slot := rfl
@[simp] theorem clearSticky_txlog : (clearSticky w s).txlog = s.txlog := rfl
@[simp] theorem clearSticky_led : (clearSticky w s).led = s.led := rfl

end clearSticky

section txIssue

variable (c : Rgb) (s : State)

@[simp] theorem txIssue_cfg : (txIssue c s).cfg = s.cfg := rfl
@[simp] theorem txIssue_inputs : (txIssue c s).inputs = s.inputs := rfl
@[simp] theorem txIssue_rdlog : (txIssue c s).rdlog = s.rdlog := rfl
@[simp] theorem txIssue_brightP : (txIssue c s).brightP = s.brightP := rfl
@[simp] theorem txIssue_chR : (txIssue c s).chR = s.chR := rfl
@[simp] theorem txIssue_chG : (txIssue c s).chG = s.chG := rfl
@[simp] theorem txIssue_chB : (txIssue c s).chB = s.chB := rfl
@[simp] theorem txIssue_delay : (txIssue c s).delay = s.delay := rfl
@[simp] theorem txIssue_count : (txIssue c s).count = s.count := rfl
@[simp] theorem txIssue_steps : (txIssue c s).steps = s.steps := rfl
@[simp] theorem txIssue_txfail : (txIssue c s).txfail = s.txfail := rfl
@[simp] theorem txIssue_invarg : (txIssue c s).invarg = s.invarg := rfl
@[simp] theorem txIssue_busyerr : (txIssue c s).busyerr = s.busyerr := rfl
@[simp] theorem txIssue_illcmd : (txIssue c s).illcmd = s.illcmd := rfl
@[simp] theorem txIssue_phase : (txIssue c s).phase = s.phase := rfl
@[simp] theorem txIssue_txp : (txIssue c s).txp = true := rfl
@[simp] theorem txIssue_idx : (txIssue c s).idx = s.idx := rfl
@[simp] theorem txIssue_waitcnt : (txIssue c s).waitcnt = s.waitcnt := rfl
@[simp] theorem txIssue_lcR : (txIssue c s).lcR = s.lcR := rfl
@[simp] theorem txIssue_lcG : (txIssue c s).lcG = s.lcG := rfl
@[simp] theorem txIssue_lcB : (txIssue c s).lcB = s.lcB := rfl
@[simp] theorem txIssue_lp : (txIssue c s).lp = s.lp := rfl
@[simp] theorem txIssue_lpm : (txIssue c s).lpm = s.lpm := rfl
@[simp] theorem txIssue_ld : (txIssue c s).ld = s.ld := rfl
@[simp] theorem txIssue_ln : (txIssue c s).ln = s.ln := rfl
@[simp] theorem txIssue_ls : (txIssue c s).ls = s.ls := rfl
@[simp] theorem txIssue_slot : (txIssue c s).slot = c := rfl
@[simp] theorem txIssue_txlog : (txIssue c s).txlog = s.txlog ++ [⟨c, .pending⟩] := rfl
@[simp] theorem txIssue_led : (txIssue c s).led = s.led := rfl

end txIssue

section enter

variable (p : Phase) (k : BitVec 32) (c : Rgb) (s : State)

@[simp] theorem enter_cfg : (enter p k c s).cfg = s.cfg := rfl
@[simp] theorem enter_inputs : (enter p k c s).inputs = s.inputs := rfl
@[simp] theorem enter_rdlog : (enter p k c s).rdlog = s.rdlog := rfl
@[simp] theorem enter_brightP : (enter p k c s).brightP = s.brightP := rfl
@[simp] theorem enter_chR : (enter p k c s).chR = s.chR := rfl
@[simp] theorem enter_chG : (enter p k c s).chG = s.chG := rfl
@[simp] theorem enter_chB : (enter p k c s).chB = s.chB := rfl
@[simp] theorem enter_delay : (enter p k c s).delay = s.delay := rfl
@[simp] theorem enter_count : (enter p k c s).count = s.count := rfl
@[simp] theorem enter_steps : (enter p k c s).steps = s.steps := rfl
@[simp] theorem enter_txfail : (enter p k c s).txfail = s.txfail := rfl
@[simp] theorem enter_invarg : (enter p k c s).invarg = s.invarg := rfl
@[simp] theorem enter_busyerr : (enter p k c s).busyerr = s.busyerr := rfl
@[simp] theorem enter_illcmd : (enter p k c s).illcmd = s.illcmd := rfl
@[simp] theorem enter_phase : (enter p k c s).phase = p := rfl
@[simp] theorem enter_txp : (enter p k c s).txp = true := rfl
@[simp] theorem enter_idx : (enter p k c s).idx = k := rfl
@[simp] theorem enter_waitcnt : (enter p k c s).waitcnt = 0#32 := rfl
@[simp] theorem enter_lcR : (enter p k c s).lcR = s.lcR := rfl
@[simp] theorem enter_lcG : (enter p k c s).lcG = s.lcG := rfl
@[simp] theorem enter_lcB : (enter p k c s).lcB = s.lcB := rfl
@[simp] theorem enter_lp : (enter p k c s).lp = s.lp := rfl
@[simp] theorem enter_lpm : (enter p k c s).lpm = s.lpm := rfl
@[simp] theorem enter_ld : (enter p k c s).ld = s.ld := rfl
@[simp] theorem enter_ln : (enter p k c s).ln = s.ln := rfl
@[simp] theorem enter_ls : (enter p k c s).ls = s.ls := rfl
@[simp] theorem enter_slot : (enter p k c s).slot = c := rfl
@[simp] theorem enter_txlog : (enter p k c s).txlog = s.txlog ++ [⟨c, .pending⟩] := rfl
@[simp] theorem enter_led : (enter p k c s).led = s.led := rfl

end enter

section finish

variable (s : State)

@[simp] theorem finish_cfg : (finish s).cfg = s.cfg := rfl
@[simp] theorem finish_inputs : (finish s).inputs = s.inputs := rfl
@[simp] theorem finish_rdlog : (finish s).rdlog = s.rdlog := rfl
@[simp] theorem finish_brightP : (finish s).brightP = s.brightP := rfl
@[simp] theorem finish_chR : (finish s).chR = s.chR := rfl
@[simp] theorem finish_chG : (finish s).chG = s.chG := rfl
@[simp] theorem finish_chB : (finish s).chB = s.chB := rfl
@[simp] theorem finish_delay : (finish s).delay = s.delay := rfl
@[simp] theorem finish_count : (finish s).count = s.count := rfl
@[simp] theorem finish_steps : (finish s).steps = s.steps := rfl
@[simp] theorem finish_txfail : (finish s).txfail = s.txfail := rfl
@[simp] theorem finish_invarg : (finish s).invarg = s.invarg := rfl
@[simp] theorem finish_busyerr : (finish s).busyerr = s.busyerr := rfl
@[simp] theorem finish_illcmd : (finish s).illcmd = s.illcmd := rfl
@[simp] theorem finish_phase : (finish s).phase = .idle := rfl
@[simp] theorem finish_txp : (finish s).txp = s.txp := rfl
@[simp] theorem finish_idx : (finish s).idx = 0#32 := rfl
@[simp] theorem finish_waitcnt : (finish s).waitcnt = 0#32 := rfl
@[simp] theorem finish_lcR : (finish s).lcR = s.lcR := rfl
@[simp] theorem finish_lcG : (finish s).lcG = s.lcG := rfl
@[simp] theorem finish_lcB : (finish s).lcB = s.lcB := rfl
@[simp] theorem finish_lp : (finish s).lp = s.lp := rfl
@[simp] theorem finish_lpm : (finish s).lpm = s.lpm := rfl
@[simp] theorem finish_ld : (finish s).ld = s.ld := rfl
@[simp] theorem finish_ln : (finish s).ln = s.ln := rfl
@[simp] theorem finish_ls : (finish s).ls = s.ls := rfl
@[simp] theorem finish_slot : (finish s).slot = s.slot := rfl
@[simp] theorem finish_txlog : (finish s).txlog = s.txlog := rfl
@[simp] theorem finish_led : (finish s).led = s.led := rfl

end finish

section returnWord

variable (i : BitVec 4) (v : Word) (s : State)

@[simp] theorem returnWord_cfg : (returnWord i v s).cfg = s.cfg := rfl
@[simp] theorem returnWord_inputs : (returnWord i v s).inputs = s.inputs := rfl
@[simp] theorem returnWord_rdlog : (returnWord i v s).rdlog = s.rdlog ++ [(i, v)] := rfl
@[simp] theorem returnWord_brightP : (returnWord i v s).brightP = s.brightP := rfl
@[simp] theorem returnWord_chR : (returnWord i v s).chR = s.chR := rfl
@[simp] theorem returnWord_chG : (returnWord i v s).chG = s.chG := rfl
@[simp] theorem returnWord_chB : (returnWord i v s).chB = s.chB := rfl
@[simp] theorem returnWord_delay : (returnWord i v s).delay = s.delay := rfl
@[simp] theorem returnWord_count : (returnWord i v s).count = s.count := rfl
@[simp] theorem returnWord_steps : (returnWord i v s).steps = s.steps := rfl
@[simp] theorem returnWord_txfail : (returnWord i v s).txfail = s.txfail := rfl
@[simp] theorem returnWord_invarg : (returnWord i v s).invarg = s.invarg := rfl
@[simp] theorem returnWord_busyerr : (returnWord i v s).busyerr = s.busyerr := rfl
@[simp] theorem returnWord_illcmd : (returnWord i v s).illcmd = s.illcmd := rfl
@[simp] theorem returnWord_phase : (returnWord i v s).phase = s.phase := rfl
@[simp] theorem returnWord_txp : (returnWord i v s).txp = s.txp := rfl
@[simp] theorem returnWord_idx : (returnWord i v s).idx = s.idx := rfl
@[simp] theorem returnWord_waitcnt : (returnWord i v s).waitcnt = s.waitcnt := rfl
@[simp] theorem returnWord_lcR : (returnWord i v s).lcR = s.lcR := rfl
@[simp] theorem returnWord_lcG : (returnWord i v s).lcG = s.lcG := rfl
@[simp] theorem returnWord_lcB : (returnWord i v s).lcB = s.lcB := rfl
@[simp] theorem returnWord_lp : (returnWord i v s).lp = s.lp := rfl
@[simp] theorem returnWord_lpm : (returnWord i v s).lpm = s.lpm := rfl
@[simp] theorem returnWord_ld : (returnWord i v s).ld = s.ld := rfl
@[simp] theorem returnWord_ln : (returnWord i v s).ln = s.ln := rfl
@[simp] theorem returnWord_ls : (returnWord i v s).ls = s.ls := rfl
@[simp] theorem returnWord_slot : (returnWord i v s).slot = s.slot := rfl
@[simp] theorem returnWord_txlog : (returnWord i v s).txlog = s.txlog := rfl
@[simp] theorem returnWord_led : (returnWord i v s).led = s.led := rfl

end returnWord

section latchBlink

variable (s : State)

@[simp] theorem latchBlink_cfg : (latchBlink s).cfg = s.cfg := rfl
@[simp] theorem latchBlink_inputs : (latchBlink s).inputs = s.inputs := rfl
@[simp] theorem latchBlink_rdlog : (latchBlink s).rdlog = s.rdlog := rfl
@[simp] theorem latchBlink_brightP : (latchBlink s).brightP = s.brightP := rfl
@[simp] theorem latchBlink_chR : (latchBlink s).chR = s.chR := rfl
@[simp] theorem latchBlink_chG : (latchBlink s).chG = s.chG := rfl
@[simp] theorem latchBlink_chB : (latchBlink s).chB = s.chB := rfl
@[simp] theorem latchBlink_delay : (latchBlink s).delay = s.delay := rfl
@[simp] theorem latchBlink_count : (latchBlink s).count = s.count := rfl
@[simp] theorem latchBlink_steps : (latchBlink s).steps = s.steps := rfl
@[simp] theorem latchBlink_txfail : (latchBlink s).txfail = s.txfail := rfl
@[simp] theorem latchBlink_invarg : (latchBlink s).invarg = s.invarg := rfl
@[simp] theorem latchBlink_busyerr : (latchBlink s).busyerr = s.busyerr := rfl
@[simp] theorem latchBlink_illcmd : (latchBlink s).illcmd = s.illcmd := rfl
@[simp] theorem latchBlink_phase : (latchBlink s).phase = s.phase := rfl
@[simp] theorem latchBlink_txp : (latchBlink s).txp = s.txp := rfl
@[simp] theorem latchBlink_idx : (latchBlink s).idx = s.idx := rfl
@[simp] theorem latchBlink_waitcnt : (latchBlink s).waitcnt = s.waitcnt := rfl
@[simp] theorem latchBlink_lcR : (latchBlink s).lcR = clampC s.chR := rfl
@[simp] theorem latchBlink_lcG : (latchBlink s).lcG = clampC s.chG := rfl
@[simp] theorem latchBlink_lcB : (latchBlink s).lcB = clampC s.chB := rfl
@[simp] theorem latchBlink_lp : (latchBlink s).lp = s.brightP := rfl
@[simp] theorem latchBlink_lpm : (latchBlink s).lpm = s.lpm := rfl
@[simp] theorem latchBlink_ld : (latchBlink s).ld = s.delay := rfl
@[simp] theorem latchBlink_ln : (latchBlink s).ln = s.count := rfl
@[simp] theorem latchBlink_ls : (latchBlink s).ls = s.ls := rfl
@[simp] theorem latchBlink_slot : (latchBlink s).slot = s.slot := rfl
@[simp] theorem latchBlink_txlog : (latchBlink s).txlog = s.txlog := rfl
@[simp] theorem latchBlink_led : (latchBlink s).led = s.led := rfl

end latchBlink

section latchPulse

variable (s : State)

@[simp] theorem latchPulse_cfg : (latchPulse s).cfg = s.cfg := rfl
@[simp] theorem latchPulse_inputs : (latchPulse s).inputs = s.inputs := rfl
@[simp] theorem latchPulse_rdlog : (latchPulse s).rdlog = s.rdlog := rfl
@[simp] theorem latchPulse_brightP : (latchPulse s).brightP = s.brightP := rfl
@[simp] theorem latchPulse_chR : (latchPulse s).chR = s.chR := rfl
@[simp] theorem latchPulse_chG : (latchPulse s).chG = s.chG := rfl
@[simp] theorem latchPulse_chB : (latchPulse s).chB = s.chB := rfl
@[simp] theorem latchPulse_delay : (latchPulse s).delay = s.delay := rfl
@[simp] theorem latchPulse_count : (latchPulse s).count = s.count := rfl
@[simp] theorem latchPulse_steps : (latchPulse s).steps = s.steps := rfl
@[simp] theorem latchPulse_txfail : (latchPulse s).txfail = s.txfail := rfl
@[simp] theorem latchPulse_invarg : (latchPulse s).invarg = s.invarg := rfl
@[simp] theorem latchPulse_busyerr : (latchPulse s).busyerr = s.busyerr := rfl
@[simp] theorem latchPulse_illcmd : (latchPulse s).illcmd = s.illcmd := rfl
@[simp] theorem latchPulse_phase : (latchPulse s).phase = s.phase := rfl
@[simp] theorem latchPulse_txp : (latchPulse s).txp = s.txp := rfl
@[simp] theorem latchPulse_idx : (latchPulse s).idx = s.idx := rfl
@[simp] theorem latchPulse_waitcnt : (latchPulse s).waitcnt = s.waitcnt := rfl
@[simp] theorem latchPulse_lcR : (latchPulse s).lcR = clampC s.chR := rfl
@[simp] theorem latchPulse_lcG : (latchPulse s).lcG = clampC s.chG := rfl
@[simp] theorem latchPulse_lcB : (latchPulse s).lcB = clampC s.chB := rfl
@[simp] theorem latchPulse_lp : (latchPulse s).lp = s.brightP := rfl
@[simp] theorem latchPulse_lpm : (latchPulse s).lpm = rampCeiling s.brightP := rfl
@[simp] theorem latchPulse_ld : (latchPulse s).ld = s.delay := rfl
@[simp] theorem latchPulse_ln : (latchPulse s).ln = s.ln := rfl
@[simp] theorem latchPulse_ls : (latchPulse s).ls = s.steps := rfl
@[simp] theorem latchPulse_slot : (latchPulse s).slot = s.slot := rfl
@[simp] theorem latchPulse_txlog : (latchPulse s).txlog = s.txlog := rfl
@[simp] theorem latchPulse_led : (latchPulse s).led = s.led := rfl

end latchPulse

section resetBlock

variable (s : State)

@[simp] theorem resetBlock_cfg : (resetBlock s).cfg = s.cfg := rfl
@[simp] theorem resetBlock_inputs : (resetBlock s).inputs = s.inputs := rfl
@[simp] theorem resetBlock_rdlog : (resetBlock s).rdlog = s.rdlog := rfl
@[simp] theorem resetBlock_brightP : (resetBlock s).brightP = clampPercent s.cfg.initPct := rfl
@[simp] theorem resetBlock_chR : (resetBlock s).chR = 0#32 := rfl
@[simp] theorem resetBlock_chG : (resetBlock s).chG = 0#32 := rfl
@[simp] theorem resetBlock_chB : (resetBlock s).chB = 0#32 := rfl
@[simp] theorem resetBlock_delay : (resetBlock s).delay = 0#32 := rfl
@[simp] theorem resetBlock_count : (resetBlock s).count = 0#32 := rfl
@[simp] theorem resetBlock_steps : (resetBlock s).steps = 0#16 := rfl
@[simp] theorem resetBlock_txfail : (resetBlock s).txfail = false := rfl
@[simp] theorem resetBlock_invarg : (resetBlock s).invarg = false := rfl
@[simp] theorem resetBlock_busyerr : (resetBlock s).busyerr = false := rfl
@[simp] theorem resetBlock_illcmd : (resetBlock s).illcmd = false := rfl
@[simp] theorem resetBlock_phase : (resetBlock s).phase = .resetOff := rfl
@[simp] theorem resetBlock_txp : (resetBlock s).txp = true := rfl
@[simp] theorem resetBlock_idx : (resetBlock s).idx = 0#32 := rfl
@[simp] theorem resetBlock_waitcnt : (resetBlock s).waitcnt = 0#32 := rfl
@[simp] theorem resetBlock_lcR : (resetBlock s).lcR = 0#8 := rfl
@[simp] theorem resetBlock_lcG : (resetBlock s).lcG = 0#8 := rfl
@[simp] theorem resetBlock_lcB : (resetBlock s).lcB = 0#8 := rfl
@[simp] theorem resetBlock_lp : (resetBlock s).lp = clampPercent s.cfg.initPct := rfl
@[simp] theorem resetBlock_lpm : (resetBlock s).lpm = 100#7 := rfl
@[simp] theorem resetBlock_ld : (resetBlock s).ld = 0#32 := rfl
@[simp] theorem resetBlock_ln : (resetBlock s).ln = 0#32 := rfl
@[simp] theorem resetBlock_ls : (resetBlock s).ls = 0#16 := rfl
@[simp] theorem resetBlock_slot : (resetBlock s).slot = Rgb.off := rfl
@[simp] theorem resetBlock_txlog : (resetBlock s).txlog = s.txlog ++ [⟨Rgb.off, .pending⟩] := rfl
@[simp] theorem resetBlock_led : (resetBlock s).led = .unknown := rfl

end resetBlock

end Sys2Proof.Machine
end

