-- ==== Sys2Proof/Laws/Ops.lean ====
section
/-! SUPPORT. What each shared operation can do, said once. -/

namespace Sys2Proof.Machine

theorem unlessBusy_idle {f : State → State} {s : State} (h : s.phase = .idle) : unlessBusy f s = f s := if_pos h

theorem unlessBusy_busy {f : State → State} {s : State} (h : s.phase ≠ .idle) :
    unlessBusy f s = raiseCondition .busy s := if_neg h

/-- The busy guard does one of two things. -/
theorem unlessBusy_cases (f : State → State) (s : State) :
    s.phase = .idle ∧ unlessBusy f s = f s ∨ s.phase ≠ .idle ∧ unlessBusy f s = raiseCondition .busy s := by
  by_cases h : s.phase = .idle
  · exact .inl ⟨h, unlessBusy_idle h⟩
  · exact .inr ⟨h, unlessBusy_busy h⟩

/-- A condition sets its own sticky bit and no other. -/
theorem sticky_raiseCondition (c d : Condition) (s : State) :
    sticky d (raiseCondition c s) = (sticky d s || c == d) := by
  cases c <;> cases d <;> simp [sticky]

/-- The answer of a transmit reaches the last entry only. -/
theorem answerLast_append (r : TxResult) (l : List TxEntry) (e : TxEntry) :
    answerLast r (l ++ [e]) = l ++ [{ e with result := r }] := by
  induction l with
  | nil => rfl
  | cons a l ih =>
    cases l with
    | nil => rfl
    | cons b l => simpa [answerLast] using ih

/-- No answer changes a triple of TXLOG. -/
theorem answerLast_map_rgb (r : TxResult) (l : List TxEntry) : (answerLast r l).map (·.rgb) = l.map (·.rgb) := by
  induction l using List.reverseRecOn with
  | nil => rfl
  | append_singleton l e _ => simp [answerLast_append]

/-- What a BLINK accepted while idle does. -/
theorem startBlink_cases (s : State) :
    s.count = 0#32 ∧ startBlink s = latchBlink s ∨
      s.count ≠ 0#32 ∧ startBlink s = enter .blinkOn 0#32 (blinkColour (latchBlink s)) (latchBlink s) := by
  by_cases h : s.count = 0#32 <;> simp [startBlink, h]

/-- What a PULSE accepted while idle does. -/
theorem startPulse_cases (s : State) :
    s.steps = 0#16 ∧ startPulse s = raiseCondition .invalidArgument s ∨
      s.steps ≠ 0#16 ∧ startPulse s = enter .rampUp 0#32 (rampLevel 0#32 (latchPulse s)) (latchPulse s) := by
  by_cases h : s.steps = 0#16 <;> simp [startPulse, h]

/-- What a finished wait does, in each waiting phase. -/
theorem advance_cases (s : State) (h : waiting s.phase = true) :
    s.phase = .blinkOn ∧ advance s = enter .blinkOff s.idx (scaledOff s) s ∨
    s.phase = .blinkOff ∧ s.idx.toNat + 1 < s.ln.toNat ∧ advance s = enter .blinkOn (s.idx + 1#32) (blinkColour s) s ∨
    s.phase = .blinkOff ∧ s.ln.toNat ≤ s.idx.toNat + 1 ∧ advance s = finish s ∨
    s.phase = .rampUp ∧ s.idx.toNat < s.ls.toNat ∧ advance s = enter .rampUp (s.idx + 1#32) (rampLevel (s.idx + 1#32) s) s ∨
    s.phase = .rampUp ∧ s.ls.toNat ≤ s.idx.toNat ∧
      advance s = enter .rampDown (s.ls.setWidth 32) (rampLevel (s.ls.setWidth 32) s) s ∨
    s.phase = .rampDown ∧ 0 < s.idx.toNat ∧ advance s = enter .rampDown (s.idx - 1#32) (rampLevel (s.idx - 1#32) s) s ∨
    s.phase = .rampDown ∧ s.idx.toNat = 0 ∧ advance s = enter .finalOff 0#32 (scaledOff s) s := by
  cases hp : s.phase <;> simp only [hp, waiting, Bool.false_eq_true] at h
  · simp [advance, hp, advanceBlinkOn]
  · by_cases hi : s.idx.toNat + 1 < s.ln.toNat
    · simp [advance, hp, advanceBlinkOff, hi]
    · simp [advance, hp, advanceBlinkOff, hi, Nat.le_of_not_lt hi]
  · by_cases hi : s.idx.toNat < s.ls.toNat
    · simp [advance, hp, advanceRampUp, hi]
    · simp [advance, hp, advanceRampUp, hi, Nat.le_of_not_lt hi]
  · by_cases hi : 0 < s.idx.toNat
    · simp [advance, hp, advanceRampDown, hi]
    · simp [advance, hp, advanceRampDown, Nat.eq_zero_of_not_pos hi]

/-- What an answered phase does. -/
theorem phaseDone_cases (s : State) (h : s.phase ≠ .idle) :
    waiting s.phase = false ∧ phaseDone s = finish s ∨
    waiting s.phase = true ∧ s.ld = 0#32 ∧ phaseDone s = advance s ∨
    waiting s.phase = true ∧ s.ld ≠ 0#32 ∧ phaseDone s = { s with waitcnt := s.ld } := by
  cases hp : s.phase <;> simp only [hp, ne_eq, not_true_eq_false] at h <;>
    by_cases hl : s.ld = 0#32 <;> simp [phaseDone, startWait, hp, waiting, hl]

/-- What a tick does. -/
theorem tick_cases (s : State) :
    tick s = s ∨
    waiting s.phase = true ∧ s.txp = false ∧ 0 < s.waitcnt.toNat ∧ s.waitcnt - 1#32 ≠ 0#32 ∧
      tick s = { s with waitcnt := s.waitcnt - 1#32 } ∨
    waiting s.phase = true ∧ s.txp = false ∧ 0 < s.waitcnt.toNat ∧ s.waitcnt - 1#32 = 0#32 ∧
      tick s = advance { s with waitcnt := 0#32 } := by
  by_cases h : waiting s.phase ∧ s.txp = false ∧ 0 < s.waitcnt.toNat
  · obtain ⟨hw, ht, hc⟩ := h
    by_cases h0 : s.waitcnt - 1#32 = 0#32 <;> simp [tick, hw, ht, hc, h0]
  · exact .inl (if_neg h)

end Sys2Proof.Machine
end

