-- ==== Sys2Proof/Laws/PerInstr.lean ====
section
/-! SUPPORT. Statements about every instruction as syntax, one lemma per constructor. -/

namespace Sys2Proof.Laws.AccessDecodes

/-- The host access that carries a well-formed instruction decodes to it, or to WR CMD of a word whose row it is
(30_encoding.md R70, R75). -/
def Statement (i : Instr) : Prop :=
  i.wellFormed = true →
    decodeAccess i.access.1 i.access.2 = i ∨
      ∃ w, decodeAccess i.access.1 i.access.2 = .wrCmd w ∧ commandRow w = i

theorem off : Statement .off := fun _ => .inr ⟨_, rfl, by decide⟩
theorem blue : Statement .blue := fun _ => .inr ⟨_, rfl, by decide⟩
theorem green : Statement .green := fun _ => .inr ⟨_, rfl, by decide⟩
theorem cyan : Statement .cyan := fun _ => .inr ⟨_, rfl, by decide⟩
theorem red : Statement .red := fun _ => .inr ⟨_, rfl, by decide⟩
theorem magenta : Statement .magenta := fun _ => .inr ⟨_, rfl, by decide⟩
theorem yellow : Statement .yellow := fun _ => .inr ⟨_, rfl, by decide⟩
theorem white : Statement .white := fun _ => .inr ⟨_, rfl, by decide⟩
theorem set : Statement .set := fun _ => .inr ⟨_, rfl, by decide⟩
theorem blink : Statement .blink := fun _ => .inr ⟨_, rfl, by decide⟩
theorem pulse : Statement .pulse := fun _ => .inr ⟨_, rfl, by decide⟩
theorem illegalOpB : Statement .illegalOpB := fun _ => .inr ⟨_, rfl, by decide⟩

theorem illegalOpCF (lo : BitVec 2) : Statement (.illegalOpCF lo) :=
  fun _ => .inr ⟨0x3#30 ++ lo, decodeAccess_write 0#4 _, by revert lo; decide⟩

theorem illegalRsv (rsv : BitVec 28) (op : BitVec 4) : Statement (.illegalRsv rsv op) := by
  intro h
  have hne : rsv ≠ 0#28 := by simpa [Instr.wellFormed] using h
  exact .inr ⟨rsv ++ op, decodeAccess_write 0#4 _, commandRow_reserved rsv op hne⟩

theorem rdCmd : Statement .rdCmd := fun _ => .inl rfl
theorem rdStatus : Statement .rdStatus := fun _ => .inl rfl
theorem rdBright : Statement .rdBright := fun _ => .inl rfl
theorem rdChR : Statement .rdChR := fun _ => .inl rfl
theorem rdChG : Statement .rdChG := fun _ => .inl rfl
theorem rdChB : Statement .rdChB := fun _ => .inl rfl
theorem rdDelay : Statement .rdDelay := fun _ => .inl rfl
theorem rdCount : Statement .rdCount := fun _ => .inl rfl
theorem rdSteps : Statement .rdSteps := fun _ => .inl rfl
theorem rdIdx : Statement .rdIdx := fun _ => .inl rfl
theorem rdWaitcnt : Statement .rdWaitcnt := fun _ => .inl rfl
theorem rdW11 : Statement .rdW11 := fun _ => .inl rfl
theorem rdW12 : Statement .rdW12 := fun _ => .inl rfl
theorem rdW13 : Statement .rdW13 := fun _ => .inl rfl
theorem rdW14 : Statement .rdW14 := fun _ => .inl rfl
theorem rdW15 : Statement .rdW15 := fun _ => .inl rfl
theorem wrCmd (data : Word) : Statement (.wrCmd data) := fun _ => .inl (decodeAccess_write 0#4 data)
theorem wrStatus (data : Word) : Statement (.wrStatus data) := fun _ => .inl (decodeAccess_write 1#4 data)
theorem wrBright (data : Word) : Statement (.wrBright data) := fun _ => .inl (decodeAccess_write 2#4 data)
theorem wrChR (data : Word) : Statement (.wrChR data) := fun _ => .inl (decodeAccess_write 3#4 data)
theorem wrChG (data : Word) : Statement (.wrChG data) := fun _ => .inl (decodeAccess_write 4#4 data)
theorem wrChB (data : Word) : Statement (.wrChB data) := fun _ => .inl (decodeAccess_write 5#4 data)
theorem wrDelay (data : Word) : Statement (.wrDelay data) := fun _ => .inl (decodeAccess_write 6#4 data)
theorem wrCount (data : Word) : Statement (.wrCount data) := fun _ => .inl (decodeAccess_write 7#4 data)
theorem wrSteps (data : Word) : Statement (.wrSteps data) := fun _ => .inl (decodeAccess_write 8#4 data)
theorem wrIdx (data : Word) : Statement (.wrIdx data) := fun _ => .inl (decodeAccess_write 9#4 data)
theorem wrWaitcnt (data : Word) : Statement (.wrWaitcnt data) := fun _ => .inl (decodeAccess_write 10#4 data)
theorem wrW11 (data : Word) : Statement (.wrW11 data) := fun _ => .inl (decodeAccess_write 11#4 data)
theorem wrW12 (data : Word) : Statement (.wrW12 data) := fun _ => .inl (decodeAccess_write 12#4 data)
theorem wrW13 (data : Word) : Statement (.wrW13 data) := fun _ => .inl (decodeAccess_write 13#4 data)
theorem wrW14 (data : Word) : Statement (.wrW14 data) := fun _ => .inl (decodeAccess_write 14#4 data)
theorem wrW15 (data : Word) : Statement (.wrW15 data) := fun _ => .inl (decodeAccess_write 15#4 data)

end Sys2Proof.Laws.AccessDecodes
end

