-- ==== Sys2Proof/Laws/Step.lean ====
section
/-! SUPPORT. What an instruction, an event and a step can do, said once: later proofs cite these and unfold neither exec
nor step. -/

namespace Sys2Proof.Machine

/-- What an instruction can do to a state. -/
inductive Effect (i : Instr) (s : State) : State → Prop where
  | read (widx : BitVec 4) : i = readRow widx → Effect i s (returnWord widx (slotWord widx s) s)
  | ignored : acceptedCommand i = none → droppedWhenBusy i = false → Effect i s s
  | cleared (w : Word) : i = .wrStatus w → Effect i s (clearSticky w s)
  | dropped : droppedWhenBusy i = true → s.phase ≠ .idle → Effect i s (raiseCondition .busy s)
  | accepted (c : Command) : acceptedCommand i = some c → s.phase = .idle → Effect i s (startCommand c s)
  | bright (w : Word) : i = .wrBright w → s.phase = .idle → Effect i s { s with brightP := clampPercent w }
  | chR (w : Word) : i = .wrChR w → s.phase = .idle → Effect i s { s with chR := w }
  | chG (w : Word) : i = .wrChG w → s.phase = .idle → Effect i s { s with chG := w }
  | chB (w : Word) : i = .wrChB w → s.phase = .idle → Effect i s { s with chB := w }
  | delay (w : Word) : i = .wrDelay w → s.phase = .idle → Effect i s { s with delay := w }
  | count (w : Word) : i = .wrCount w → s.phase = .idle → Effect i s { s with count := w }
  | steps (w : Word) : i = .wrSteps w → s.phase = .idle → Effect i s { s with steps := w.extractLsb' 0 16 }

theorem effect_unlessBusy {i : Instr} {s : State} {f : State → State} (hd : droppedWhenBusy i = true)
    (hf : s.phase = .idle → Effect i s (f s)) : Effect i s (unlessBusy f s) := by
  rcases unlessBusy_cases f s with ⟨hp, h⟩ | ⟨hp, h⟩ <;> rw [h]
  · exact hf hp
  · exact .dropped hd hp

theorem effect_command {i : Instr} {s : State} {c : Command} (hd : droppedWhenBusy i = true)
    (hc : acceptedCommand i = some c) : Effect i s (unlessBusy (startCommand c) s) :=
  effect_unlessBusy hd (.accepted c hc)

/-- Every instruction that answers a next state has one of the effects. -/
theorem exec_cases {i : Instr} {s t : State} (h : exec i s = .next t) : Effect i s t := by
  cases i
  case off => cases h; exact effect_command (c := .fixed false false false) rfl rfl
  case blue => cases h; exact effect_command (c := .fixed false false true) rfl rfl
  case green => cases h; exact effect_command (c := .fixed false true false) rfl rfl
  case cyan => cases h; exact effect_command (c := .fixed false true true) rfl rfl
  case red => cases h; exact effect_command (c := .fixed true false false) rfl rfl
  case magenta => cases h; exact effect_command (c := .fixed true false true) rfl rfl
  case yellow => cases h; exact effect_command (c := .fixed true true false) rfl rfl
  case white => cases h; exact effect_command (c := .fixed true true true) rfl rfl
  case set => cases h; exact effect_command (c := .set) rfl rfl
  case blink => cases h; exact effect_command (c := .blink) rfl rfl
  case pulse => cases h; exact effect_command (c := .pulse) rfl rfl
  case illegalOpB => cases h; exact effect_command (c := .illegal) rfl rfl
  case illegalOpCF => cases h; exact effect_command (c := .illegal) rfl rfl
  case illegalRsv => cases h; exact effect_command (c := .illegal) rfl rfl
  case rdCmd => cases h; exact .read 0#4 rfl
  case rdStatus => cases h; exact .read 1#4 rfl
  case rdBright => cases h; exact .read 2#4 rfl
  case rdChR => cases h; exact .read 3#4 rfl
  case rdChG => cases h; exact .read 4#4 rfl
  case rdChB => cases h; exact .read 5#4 rfl
  case rdDelay => cases h; exact .read 6#4 rfl
  case rdCount => cases h; exact .read 7#4 rfl
  case rdSteps => cases h; exact .read 8#4 rfl
  case rdIdx => cases h; exact .read 9#4 rfl
  case rdWaitcnt => cases h; exact .read 10#4 rfl
  case rdW11 => cases h; exact .read 11#4 rfl
  case rdW12 => cases h; exact .read 12#4 rfl
  case rdW13 => cases h; exact .read 13#4 rfl
  case rdW14 => cases h; exact .read 14#4 rfl
  case rdW15 => cases h; exact .read 15#4 rfl
  case wrCmd w => cases h; exact effect_command (c := decodeCommand w) rfl rfl
  case wrStatus w => cases h; exact .cleared w rfl
  case wrBright w => cases h; exact effect_unlessBusy rfl (.bright w rfl)
  case wrChR w => cases h; exact effect_unlessBusy rfl (.chR w rfl)
  case wrChG w => cases h; exact effect_unlessBusy rfl (.chG w rfl)
  case wrChB w => cases h; exact effect_unlessBusy rfl (.chB w rfl)
  case wrDelay w => cases h; exact effect_unlessBusy rfl (.delay w rfl)
  case wrCount w => cases h; exact effect_unlessBusy rfl (.count w rfl)
  case wrSteps w => cases h; exact effect_unlessBusy rfl (.steps w rfl)
  case wrIdx w => cases h; exact .ignored rfl rfl
  case wrWaitcnt w => cases h; exact .ignored rfl rfl
  case wrW11 w => cases h; exact .ignored rfl rfl
  case wrW12 w => cases h; exact .ignored rfl rfl
  case wrW13 w => cases h; exact .ignored rfl rfl
  case wrW14 w => cases h; exact .ignored rfl rfl
  case wrW15 w => cases h; exact .ignored rfl rfl

/-- What an event that answers a next state is and did. -/
theorem runEvent_cases {e : Event} {s t : State} (h : runEvent e s = .next t) :
    (∃ i, eventInstr e = some i ∧ exec i s = .next t) ∨
    e = .tick ∧ t = tick s ∨
    e = .txOk ∧ s.txp = true ∧ t = txRespOk s ∨
    e = .txFail ∧ s.txp = true ∧ t = txRespFail s ∨
    e = .reset ∧ t = resetBlock s := by
  cases e with
  | access key data => exact .inl ⟨_, rfl, h⟩
  | byteAccess we offset size data =>
    simp only [runEvent] at h
    split at h
    next key hk => exact .inl ⟨_, by simp [eventInstr, hk], h⟩
    next => cases h
  | tick => cases h; simp
  | txOk =>
    simp only [runEvent] at h
    split at h
    next ht => cases h; simp [ht]
    next => cases h
  | txFail =>
    simp only [runEvent] at h
    split at h
    next ht => cases h; simp [ht]
    next => cases h
  | reset => cases h; simp

/-- What a step that answers a next state did: nothing, with no event to come, or the head event. -/
theorem step_cases {s t : State} (h : step s = .next t) :
    s.cfg.numPixels = 1 ∧
      (s.inputs = [] ∧ t = s ∨
        ∃ e rest, s.inputs = e :: rest ∧ runEvent e { s with inputs := rest } = .next t) := by
  simp only [step] at h
  split at h
  next hn =>
    refine ⟨hn, ?_⟩
    simp only [runNextEvent] at h
    split at h
    next hi => cases h; exact .inl ⟨hi, rfl⟩
    next e rest hi => exact .inr ⟨e, rest, hi, h⟩
  next => cases h

end Sys2Proof.Machine
end

