-- ==== Sys2Proof/Tests/Slice0.lean ====
section
/-! SUPPORT. Tests on fixed values, their expected results taken from 95_test_vectors.md (section named in each docstring) or
from the encoding tables of 30_encoding.md, and for every statement of Certificates/Slice0/Obligations.lean that has
hypotheses a state and operands that meet them (`witness_…`). -/

open Sys2Proof Sys2Proof.Machine

namespace Sys2Proof.Tests

/-- The state an outcome answers, if it answers one. -/
def nextOf (o : Host.Outcome State Fault Refusal) : Option State :=
  match o with
  | .next s => some s
  | .fault _ => none
  | .refused _ => none

/-- A field of the state after one event. -/
def after {α : Type} (f : State → α) (e : Event) (s : State) : Option α := (nextOf (runEvent e s)).map f

/-- A field of the state after one instruction. -/
def execAfter {α : Type} (f : State → α) (i : Instr) (s : State) : Option α := (nextOf (exec i s)).map f

/-- Idle, the reset-off answered (70_reset_and_hazards.md R241), nothing in TXLOG but it. -/
def idle : State :=
  { State.reset with phase := .idle, txp := false, txlog := [⟨Rgb.off, .ok⟩], led := .known Rgb.off }

/-- Idle with a percent, a colour, and the lengths of an effect. -/
def ready (p : BitVec 7) (r g b delay count : Word) (steps : BitVec 16) : State :=
  { idle with brightP := p, chR := r, chG := g, chB := b, delay := delay, count := count, steps := steps }

/-- The same in BINARY64. -/
def binary64 (s : State) : State := { s with cfg := { s.cfg with scaleArith := .binary64 } }

/-- A waiting phase with `n` ticks to go. -/
def waitingIn (phase : Phase) (n : Word) : State := { idle with phase := phase, ld := n, waitcnt := n, ln := 1#32, ls := 1#16 }

/-- A phase whose transmit is outstanding. -/
def pendingIn (phase : Phase) : State :=
  { idle with phase := phase, txp := true, txlog := [⟨Rgb.off, .ok⟩, ⟨Rgb.off, .pending⟩], ln := 1#32, ls := 1#16 }

section WellFormed

/-- An ILLEGAL_RSV whose reserved field is 0 is another row's word (30_encoding.md R71). -/
theorem test_wf_refuses_zero_rsv : (Instr.illegalRsv 0#28 5#4).wellFormed = false := by decide
theorem test_wf_accepts_rsv : (Instr.illegalRsv 1#28 5#4).wellFormed = true := by decide

end WellFormed

section Decode

/-- The command words of 30_encoding.md R72. -/
theorem test_decode_off : decode [0x00#8, 0#8, 0#8, 0#8] = .ok .off := by decide
theorem test_decode_blue : decode [0x01#8, 0#8, 0#8, 0#8] = .ok .blue := by decide
theorem test_decode_green : decode [0x02#8, 0#8, 0#8, 0#8] = .ok .green := by decide
theorem test_decode_cyan : decode [0x03#8, 0#8, 0#8, 0#8] = .ok .cyan := by decide
theorem test_decode_red : decode [0x04#8, 0#8, 0#8, 0#8] = .ok .red := by decide
theorem test_decode_magenta : decode [0x05#8, 0#8, 0#8, 0#8] = .ok .magenta := by decide
theorem test_decode_yellow : decode [0x06#8, 0#8, 0#8, 0#8] = .ok .yellow := by decide
theorem test_decode_white : decode [0x07#8, 0#8, 0#8, 0#8] = .ok .white := by decide
theorem test_decode_set : decode [0x08#8, 0#8, 0#8, 0#8] = .ok .set := by decide
theorem test_decode_blink : decode [0x09#8, 0#8, 0#8, 0#8] = .ok .blink := by decide
theorem test_decode_pulse : decode [0x0A#8, 0#8, 0#8, 0#8] = .ok .pulse := by decide

/-- The illegal words of 30_encoding.md R71: 0xB, 0xC to 0xF, and any word with a bit of [31:4] set. -/
theorem test_decode_illegal_b : decode [0x0B#8, 0#8, 0#8, 0#8] = .ok .illegalOpB := by decide
theorem test_decode_illegal_c : decode [0x0C#8, 0#8, 0#8, 0#8] = .ok (.illegalOpCF 0#2) := by decide
theorem test_decode_illegal_f : decode [0x0F#8, 0#8, 0#8, 0#8] = .ok (.illegalOpCF 3#2) := by decide
theorem test_decode_illegal_rsv_low : decode [0x18#8, 0#8, 0#8, 0#8] = .ok (.illegalRsv 1#28 8#4) := by decide
theorem test_decode_illegal_rsv_high : decode [0x00#8, 0#8, 0#8, 0x80#8] = .ok (.illegalRsv 0x8000000#28 0#4) := by decide

/-- The read keys of 30_encoding.md R75: WE = 0 and the slot. -/
theorem test_decode_rd_cmd : decode [0x00#8, 0#8, 0#8, 0#8, 0#8] = .ok .rdCmd := by decide
theorem test_decode_rd_status : decode [0x01#8, 0#8, 0#8, 0#8, 0#8] = .ok .rdStatus := by decide
theorem test_decode_rd_bright : decode [0x02#8, 0#8, 0#8, 0#8, 0#8] = .ok .rdBright := by decide
theorem test_decode_rd_ch_r : decode [0x03#8, 0#8, 0#8, 0#8, 0#8] = .ok .rdChR := by decide
theorem test_decode_rd_ch_g : decode [0x04#8, 0#8, 0#8, 0#8, 0#8] = .ok .rdChG := by decide
theorem test_decode_rd_ch_b : decode [0x05#8, 0#8, 0#8, 0#8, 0#8] = .ok .rdChB := by decide
theorem test_decode_rd_delay : decode [0x06#8, 0#8, 0#8, 0#8, 0#8] = .ok .rdDelay := by decide
theorem test_decode_rd_count : decode [0x07#8, 0#8, 0#8, 0#8, 0#8] = .ok .rdCount := by decide
theorem test_decode_rd_steps : decode [0x08#8, 0#8, 0#8, 0#8, 0#8] = .ok .rdSteps := by decide
theorem test_decode_rd_idx : decode [0x09#8, 0#8, 0#8, 0#8, 0#8] = .ok .rdIdx := by decide
theorem test_decode_rd_waitcnt : decode [0x0A#8, 0#8, 0#8, 0#8, 0#8] = .ok .rdWaitcnt := by decide
theorem test_decode_rd_w11 : decode [0x0B#8, 0#8, 0#8, 0#8, 0#8] = .ok .rdW11 := by decide
theorem test_decode_rd_w12 : decode [0x0C#8, 0#8, 0#8, 0#8, 0#8] = .ok .rdW12 := by decide
theorem test_decode_rd_w13 : decode [0x0D#8, 0#8, 0#8, 0#8, 0#8] = .ok .rdW13 := by decide
theorem test_decode_rd_w14 : decode [0x0E#8, 0#8, 0#8, 0#8, 0#8] = .ok .rdW14 := by decide
theorem test_decode_rd_w15 : decode [0x0F#8, 0#8, 0#8, 0#8, 0#8] = .ok .rdW15 := by decide

/-- The write keys of 30_encoding.md R75: WE = 1 and the slot; the data word is 0x44332211. -/
theorem test_decode_wr_cmd : decode [0x10#8, 0x11#8, 0x22#8, 0x33#8, 0x44#8] = .ok (.wrCmd 0x44332211#32) := by decide
theorem test_decode_wr_status : decode [0x11#8, 0x11#8, 0x22#8, 0x33#8, 0x44#8] = .ok (.wrStatus 0x44332211#32) := by decide
theorem test_decode_wr_bright : decode [0x12#8, 0x11#8, 0x22#8, 0x33#8, 0x44#8] = .ok (.wrBright 0x44332211#32) := by decide
theorem test_decode_wr_ch_r : decode [0x13#8, 0x11#8, 0x22#8, 0x33#8, 0x44#8] = .ok (.wrChR 0x44332211#32) := by decide
theorem test_decode_wr_ch_g : decode [0x14#8, 0x11#8, 0x22#8, 0x33#8, 0x44#8] = .ok (.wrChG 0x44332211#32) := by decide
theorem test_decode_wr_ch_b : decode [0x15#8, 0x11#8, 0x22#8, 0x33#8, 0x44#8] = .ok (.wrChB 0x44332211#32) := by decide
theorem test_decode_wr_delay : decode [0x16#8, 0x11#8, 0x22#8, 0x33#8, 0x44#8] = .ok (.wrDelay 0x44332211#32) := by decide
theorem test_decode_wr_count : decode [0x17#8, 0x11#8, 0x22#8, 0x33#8, 0x44#8] = .ok (.wrCount 0x44332211#32) := by decide
theorem test_decode_wr_steps : decode [0x18#8, 0x11#8, 0x22#8, 0x33#8, 0x44#8] = .ok (.wrSteps 0x44332211#32) := by decide
theorem test_decode_wr_idx : decode [0x19#8, 0x11#8, 0x22#8, 0x33#8, 0x44#8] = .ok (.wrIdx 0x44332211#32) := by decide
theorem test_decode_wr_waitcnt : decode [0x1A#8, 0x11#8, 0x22#8, 0x33#8, 0x44#8] = .ok (.wrWaitcnt 0x44332211#32) := by decide
theorem test_decode_wr_w11 : decode [0x1B#8, 0x11#8, 0x22#8, 0x33#8, 0x44#8] = .ok (.wrW11 0x44332211#32) := by decide
theorem test_decode_wr_w12 : decode [0x1C#8, 0x11#8, 0x22#8, 0x33#8, 0x44#8] = .ok (.wrW12 0x44332211#32) := by decide
theorem test_decode_wr_w13 : decode [0x1D#8, 0x11#8, 0x22#8, 0x33#8, 0x44#8] = .ok (.wrW13 0x44332211#32) := by decide
theorem test_decode_wr_w14 : decode [0x1E#8, 0x11#8, 0x22#8, 0x33#8, 0x44#8] = .ok (.wrW14 0x44332211#32) := by decide
theorem test_decode_wr_w15 : decode [0x1F#8, 0x11#8, 0x22#8, 0x33#8, 0x44#8] = .ok (.wrW15 0x44332211#32) := by decide

/-- What is neither a command word nor an access is rejected by name; a key has 5 bits. -/
theorem test_decode_rejects_length : decode [0x01#8, 0#8, 0#8] = .error .badLength := by decide
theorem test_decode_rejects_wide_key : decode [0x20#8, 0#8, 0#8, 0#8, 0#8] = .error .keyTooWide := by decide

/-- The rows as spec/opcode_table.json numbers their bits. -/
theorem test_table_command_row : decodeTableWord 32 0x0000000A = some .pulse := by decide
theorem test_table_access_row : decodeTableWord 8 0x16 = some (.wrDelay 0#32) := by decide

end Decode

section Scaler

/-- 95_test_vectors.md L2.1. -/
theorem test_clampC :
    [0x0#32, 0x80#32, 0xFF#32, 0x100#32, 0x12C#32, 0xFFFFFFFF#32, 0xFFFFFFFC#32, 0x7FFFFFFF#32, 0x80000000#32].map clampC =
      [0#8, 128#8, 255#8, 255#8, 255#8, 0#8, 0#8, 255#8, 0#8] := by decide

/-- 95_test_vectors.md L2.2, EXACT. -/
theorem test_scale_exact :
    [(255, 20), (255, 1), (255, 99), (128, 50), (3, 33), (99, 99), (100, 29), (200, 58), (180, 35), (150, 82)].map
        (fun x => scaleNat .exact x.1 x.2) =
      [51, 2, 252, 64, 0, 98, 29, 116, 63, 123] := by decide

/-- 95_test_vectors.md L2.2, BINARY64: the divergent pairs among them. -/
theorem test_scale_binary64 :
    [(255, 20), (255, 1), (255, 99), (128, 50), (3, 33), (99, 99), (100, 29), (200, 58), (180, 35), (150, 82)].map
        (fun x => scaleNat .binary64 x.1 x.2) =
      [51, 2, 252, 64, 0, 98, 28, 115, 62, 122] := by decide

/-- 95_test_vectors.md L2.3, EXACT. -/
theorem test_ramp_exact :
    [(255, 20, 1, 4), (255, 20, 3, 4), (255, 100, 65534, 65535), (255, 60, 1, 3), (255, 60, 2, 3), (100, 100, 29, 100)].map
        (fun x => rampScaleNat .exact x.1 x.2.1 x.2.2.1 x.2.2.2) =
      [12, 38, 254, 51, 102, 29] := by decide

/-- 95_test_vectors.md L2.3, BINARY64. -/
theorem test_ramp_binary64 :
    [(255, 20, 1, 4), (255, 20, 3, 4), (255, 100, 65534, 65535), (255, 60, 1, 3), (255, 60, 2, 3), (100, 100, 29, 100)].map
        (fun x => rampScaleNat .binary64 x.1 x.2.1 x.2.2.1 x.2.2.2) =
      [12, 38, 254, 50, 101, 28] := by decide

end Scaler

section Registers

/-- 95_test_vectors.md L1.8; L2.4 (c): no transmit. -/
theorem test_wr_bright_high :
    execAfter (fun s => (s.brightP, s.txp, s.txlog)) (.wrBright 0x96#32) idle = some (100#7, false, idle.txlog) := by decide
theorem test_wr_bright_negative : execAfter (·.brightP) (.wrBright 0xFFFFFFF6#32) idle = some 0#7 := by decide

/-- 95_test_vectors.md L2.4 (d). -/
theorem test_wr_ch_r_raw : execAfter (·.chR) (.wrChR 0xFFFFFFFB#32) idle = some 0xFFFFFFFB#32 := by decide

/-- 95_test_vectors.md L2.4 (e), (f). -/
theorem test_wr_steps_65536 : execAfter (slotWord 8#4) (.wrSteps 0x10000#32) idle = some 0#32 := by decide
theorem test_wr_steps_65537 : execAfter (slotWord 8#4) (.wrSteps 0x10001#32) idle = some 1#32 := by decide

/-- 95_test_vectors.md L2.4 (l), (n). -/
theorem test_wr_status_clears_one :
    execAfter statusWord (.wrStatus 0x100#32) { idle with txfail := true, invarg := true } = some 0x200#32 := by decide
theorem test_wr_status_sets_none : execAfter statusWord (.wrStatus 0x200#32) idle = some 0#32 := by decide

/-- 40_brightness_and_registers.md R94: the example of CH_R. -/
theorem test_rd_ch_r : after (·.rdlog) (busRead 3#4) { idle with chR := 300#32 } = some [(3#4, 0x12C#32)] := by decide

/-- 40_brightness_and_registers.md R90, R94, R100, R102: the other reads, each from its own register. -/
theorem test_reads :
    [Instr.rdCmd, .rdBright, .rdChG, .rdChB, .rdDelay, .rdCount, .rdSteps, .rdW11, .rdW12, .rdW13, .rdW14, .rdW15].map
        (fun i => execAfter (·.rdlog) i (ready 20#7 1#32 2#32 3#32 4#32 5#32 6#16)) =
      [some [(0#4, 0#32)], some [(2#4, 20#32)], some [(4#4, 2#32)], some [(5#4, 3#32)], some [(6#4, 4#32)],
        some [(7#4, 5#32)], some [(8#4, 6#32)], some [(11#4, 0#32)], some [(12#4, 0#32)], some [(13#4, 0#32)],
        some [(14#4, 0#32)], some [(15#4, 0#32)]] := by decide

/-- 40_brightness_and_registers.md R95 to R97: each write reaches its own register. -/
theorem test_writes :
    [Instr.wrChG 7#32, .wrChB 7#32, .wrDelay 7#32, .wrCount 7#32].map
        (fun i => execAfter (fun s => (s.chG, s.chB, s.delay, s.count)) i idle) =
      [some (7#32, 0#32, 0#32, 0#32), some (0#32, 7#32, 0#32, 0#32), some (0#32, 0#32, 7#32, 0#32),
        some (0#32, 0#32, 0#32, 7#32)] := by decide

/-- 40_brightness_and_registers.md R101, R102: these writes change nothing, busy or not. -/
theorem test_writes_ignored :
    [Instr.wrWaitcnt 7#32, .wrW11 7#32, .wrW13 7#32, .wrW14 7#32, .wrW15 7#32].map
        (fun i => execAfter id i (waitingIn .blinkOn 2#32)) =
      List.replicate 5 (some (waitingIn .blinkOn 2#32)) := by decide

/-- 40_brightness_and_registers.md R92: the example. -/
theorem test_rd_status : after (·.rdlog) (busRead 1#4) (waitingIn .blinkOn 2#32) = some [(1#4, 0x5#32)] := by decide

/-- 40_brightness_and_registers.md R101: the example, fade-in step 3 with 2 ticks left. -/
theorem test_rd_idx :
    after (·.rdlog) (busRead 9#4) { waitingIn .rampUp 2#32 with idx := 3#32 } = some [(9#4, 3#32)] := by decide
theorem test_rd_waitcnt : after (·.rdlog) (busRead 10#4) (waitingIn .rampUp 2#32) = some [(10#4, 2#32)] := by decide

/-- 95_test_vectors.md L2.4 (i), and L2.9: a write to W12 while busy raises nothing. -/
theorem test_wr_idx : after (slotWord 9#4) (busWrite 9#4 7#32) idle = some 0#32 := by decide
theorem test_wr_w12_busy : after statusWord (busWrite 12#4 1#32) (pendingIn .single) = some 0x13#32 := by decide

end Registers

section Commands

/-- 95_test_vectors.md L2.5, P = 20 and P = 99. -/
theorem test_off : execAfter (·.slot) .off (ready 20#7 1#32 2#32 3#32 0#32 0#32 0#16) = some ⟨0#8, 0#8, 0#8⟩ := by decide
theorem test_blue : execAfter (·.slot) .blue (ready 20#7 1#32 2#32 3#32 0#32 0#32 0#16) = some ⟨0#8, 0#8, 51#8⟩ := by decide
theorem test_green : execAfter (·.slot) .green (ready 20#7 1#32 2#32 3#32 0#32 0#32 0#16) = some ⟨0#8, 51#8, 0#8⟩ := by decide
theorem test_cyan : execAfter (·.slot) .cyan (ready 20#7 1#32 2#32 3#32 0#32 0#32 0#16) = some ⟨0#8, 51#8, 51#8⟩ := by decide
theorem test_red : execAfter (·.slot) .red (ready 20#7 1#32 2#32 3#32 0#32 0#32 0#16) = some ⟨51#8, 0#8, 0#8⟩ := by decide
theorem test_magenta : execAfter (·.slot) .magenta (ready 20#7 1#32 2#32 3#32 0#32 0#32 0#16) = some ⟨51#8, 0#8, 51#8⟩ := by decide
theorem test_yellow : execAfter (·.slot) .yellow (ready 20#7 1#32 2#32 3#32 0#32 0#32 0#16) = some ⟨51#8, 51#8, 0#8⟩ := by decide
theorem test_white :
    execAfter (·.slot) .white (binary64 (ready 99#7 1#32 2#32 3#32 0#32 0#32 0#16)) = some ⟨252#8, 252#8, 252#8⟩ := by decide

/-- 95_test_vectors.md L1.6: the status while WHITE transmits, and after its answer. -/
theorem test_white_status : execAfter statusWord .white idle = some 0x13#32 := by decide
theorem test_white_answered :
    after (fun s => (statusWord s, s.led)) .txOk { pendingIn .single with slot := ⟨51#8, 51#8, 51#8⟩ } =
      some (0#32, .known ⟨51#8, 51#8, 51#8⟩) := by decide

/-- 95_test_vectors.md L2.6. -/
theorem test_set :
    execAfter (·.slot) .set (ready 50#7 300#32 0xFFFFFFFC#32 101#32 0#32 0#32 0#16) = some ⟨127#8, 0#8, 50#8⟩ := by decide
theorem test_set_binary64 :
    execAfter (·.slot) .set (binary64 (ready 29#7 100#32 200#32 0xFFFFFFFF#32 0#32 0#32 0#16)) = some ⟨28#8, 57#8, 0#8⟩ := by
  decide

/-- 95_test_vectors.md L2.7 (b) and the first row of (c). -/
theorem test_blink_count_zero :
    execAfter (fun s => (statusWord s, s.txlog, s.ln)) .blink (ready 20#7 255#32 0#32 0#32 1#32 0#32 0#16) =
      some (0#32, idle.txlog, 0#32) := by decide
theorem test_blink_starts :
    execAfter (fun s => (statusWord s, s.waitcnt, s.slot)) .blink (ready 20#7 255#32 0#32 0#32 1#32 1#32 0#16) =
      some (0x15#32, 0#32, ⟨51#8, 0#8, 0#8⟩) := by decide

/-- 95_test_vectors.md L2.8 (c), and L1.7: the ceiling at brightness 0. -/
theorem test_pulse_steps_zero :
    execAfter (fun s => (statusWord s, s.txlog, s.lcR)) .pulse (ready 20#7 255#32 0#32 0#32 1#32 1#32 0#16) =
      some (0x200#32, idle.txlog, 0#8) := by decide
theorem test_pulse_starts :
    execAfter (fun s => (statusWord s, s.lpm, s.slot)) .pulse (ready 0#7 0#32 0#32 255#32 0#32 0#32 4#16) =
      some (0x19#32, 100#7, Rgb.off) := by decide

/-- 95_test_vectors.md L2.9. -/
theorem test_illegal_b : execAfter statusWord .illegalOpB idle = some 0x800#32 := by decide
theorem test_illegal_cf : execAfter statusWord (.illegalOpCF 3#2) idle = some 0x800#32 := by decide
theorem test_illegal_rsv : execAfter statusWord (.illegalRsv 1#28 0xA#4) idle = some 0x800#32 := by decide
theorem test_wr_cmd_busy_first : execAfter statusWord (.wrCmd 0x10#32) (pendingIn .single) = some 0x413#32 := by decide
theorem test_wr_cmd_rsv_before_steps : execAfter statusWord (.wrCmd 0x1A#32) idle = some 0x800#32 := by decide

end Commands

section Effects

/-- 95_test_vectors.md L2.7 (c), row by row: a discarded tick, the answer, the last tick of the colour phase, the end. -/
theorem test_tick_discarded :
    after (fun s => (statusWord s, s.waitcnt)) .tick (pendingIn .blinkOn) = some (0x15#32, 0#32) := by decide
theorem test_answer_starts_wait :
    after (fun s => (statusWord s, s.waitcnt)) .txOk { pendingIn .blinkOn with ld := 1#32 } = some (0x05#32, 1#32) := by decide
theorem test_tick_goes_off :
    after (fun s => (statusWord s, s.waitcnt, s.slot)) .tick (waitingIn .blinkOn 1#32) =
      some (0x17#32, 0#32, Rgb.off) := by decide
theorem test_tick_ends_blink : after statusWord .tick (waitingIn .blinkOff 1#32) = some 0#32 := by decide

/-- 95_test_vectors.md L2.7 (d), (e): a busy write, and a failure. -/
theorem test_blink_busy_write :
    after (fun s => (s.count, s.busyerr)) (busWrite 7#4 5#32) { pendingIn .blinkOn with count := 1#32 } =
      some (1#32, true) := by decide
theorem test_blink_failure :
    after (fun s => (statusWord s, s.led, s.txlog.length)) .txFail (pendingIn .blinkOn) = some (0x100#32, .unknown, 2) := by
  decide

/-- 95_test_vectors.md L2.8 (d): with DELAY = 0 the answer of level 0 issues level 1. -/
theorem test_pulse_next_level :
    after (fun s => (s.slot, s.idx)) .txOk
      { pendingIn .rampUp with lcR := 200#8, lcG := 100#8, lcB := 50#8, lp := 40#7, lpm := 40#7, ls := 2#16 } =
      some (⟨40#8, 20#8, 10#8⟩, 1#32) := by decide

/-- 95_test_vectors.md L2.8 (a): the last level of the fade-in is sent again by the fade-out. -/
theorem test_pulse_turns_down :
    after (fun s => (statusWord s, s.slot, s.idx)) .txOk
      { pendingIn .rampUp with lcR := 255#8, lcG := 255#8, lcB := 255#8, lpm := 20#7, ls := 4#16, idx := 4#32 } =
      some (0x1B#32, ⟨51#8, 51#8, 51#8⟩, 4#32) := by decide

/-- 95_test_vectors.md L2.10 (a), (b), (d). -/
theorem test_reset_status : statusWord State.reset = 0x1F#32 ∧ statusWord (binary64 State.reset) = 0x1001F#32 := by decide
theorem test_reset_clamps_init :
    (State.powerUp { defaultConfig with initPct := 0xFFFFFFFD#32 } []).brightP = 0#7 := by decide
theorem test_reset_keeps_pending :
    after (fun s => s.txlog.map (·.result)) .reset (pendingIn .single) = some [.ok, .pending, .pending] := by decide

/-- 95_test_vectors.md P1, line 2: a command before the reset-off is answered is dropped. -/
theorem test_boot_drops_command : after statusWord (busWrite 0#4 0x7#32) State.reset = some 0x41F#32 := by decide

end Effects

section Witnesses

/-- Idle with one event to come. -/
def idleThen (e : Event) : State := { idle with inputs := [e] }

theorem witness_DecodeOfEncode :
    (Instr.illegalRsv 0xFFFFFFF#28 0xF#4).wellFormed = true ∧ (Instr.wrW15 0xFFFFFFFF#32).wellFormed = true := by decide

theorem witness_EncodeOfDecode :
    (decode [0x1F#8, 1#8, 2#8, 3#8, 4#8] = .ok (.wrW15 0x04030201#32) ∧
      (Instr.wrW15 0x04030201#32).access.1.getLsbD 4 = true) ∧
    (decode [0x0F#8, 1#8, 2#8, 3#8, 4#8] = .ok .rdW15 ∧ Instr.rdW15.access.1.getLsbD 4 = false) := by decide

theorem witness_CommandWordsDecode :
    (0#32).toNat < 8 ∧ (7#32).toNat < 8 ∧ (8#32).toNat = 8 ∧ (9#32).toNat = 9 ∧ (10#32).toNat = 10 ∧ 11 ≤ (11#32).toNat := by
  decide

/-- Both ways an instruction reaches the step: an access row, and a command word written to CMD. -/
theorem witness_StepRunsDecodedInstruction :
    ((idleThen (.access 0x12#5 57#32)).cfg.numPixels = 1 ∧
      (idleThen (.access 0x12#5 57#32)).inputs = .access 0x12#5 57#32 :: [] ∧
      decode (BitVec.setWidth 8 0x12#5 :: wordBytes 57#32) = .ok (.wrBright 57#32)) ∧
    ((idleThen (.access 0x10#5 7#32)).inputs = .access 0x10#5 7#32 :: [] ∧ decode (wordBytes 7#32) = .ok .white) := by decide

theorem witness_FetchedWordRuns :
    idle.cfg.numPixels = 1 ∧ decodeTableWord 32 0x9 = some .blink ∧ decodeTableWord 8 0x1F = some (.wrW15 0#32) ∧
      decodeTableWord 40 0x0000000712 = some (.wrBright 7#32) := by decide

theorem witness_NoEventNoChange : State.reset.cfg.numPixels = 1 ∧ State.reset.inputs = [] := by decide

/-- The two clauses at the last aligned word and the byte after it. -/
theorem witness_ByteAddressedAccess :
    ((idleThen (.byteAccess true 60#6 .word 1#32)).cfg.numPixels = 1 ∧
      (idleThen (.byteAccess true 60#6 .word 1#32)).inputs = .byteAccess true 60#6 .word 1#32 :: [] ∧
      (60#6).toNat % 4 = 0) ∧
    (AccessSize.half ≠ .word ∨ (0#6).toNat % 4 ≠ 0) ∧ (AccessSize.word ≠ .word ∨ (61#6).toNat % 4 ≠ 0) := by decide

theorem witness_NoAnswerWithoutRequest :
    (Event.txOk = .txOk ∧ idle.txp = false) ∧ (Event.txFail = .txFail ∧ (pendingIn .single).txp = true) := by decide

/-- A step that answers no next state, for each of the two reasons. -/
theorem witness_OnlyTheseEventsStop :
    ((idleThen .txOk).cfg.numPixels = 1 ∧ ∀ t, step (idleThen .txOk) ≠ .next t) ∧
    ((idleThen (.byteAccess false 0#6 .byte 0#32)).cfg.numPixels = 1 ∧
      ∀ t, step (idleThen (.byteAccess false 0#6 .byte 0#32)) ≠ .next t) :=
  ⟨⟨rfl, fun _ h => nomatch h⟩, ⟨rfl, fun _ h => nomatch h⟩⟩

theorem witness_ByteOrder : 0 < 4 ∧ 3 < 4 := by decide

theorem witness_StatusWordBits :
    ((5 ≤ 5 ∧ 7 ≤ 7) ∧ (12 ≤ 12 ∧ 15 ≤ 15) ∧ 17 ≤ 31) ∧ (pendingIn .finalOff).phase = .finalOff := by decide

/-- WrBrightStoresClampedPercent and ArgumentWritesStore: an idle and a busy state. -/
theorem witness_WrBrightStoresClampedPercent : idle.phase = .idle ∧ State.reset.phase ≠ .idle := by decide
theorem witness_ArgumentWritesStore : idle.phase = .idle ∧ (waitingIn .rampDown 1#32).phase ≠ .idle := by decide

theorem witness_BusyWritesAreDropped :
    (pendingIn .resetOff).phase ≠ .idle ∧
      (Instr.wrCmd 7#32 = .wrCmd 7#32 ∧ Instr.white = commandRow 7#32 ∧ Instr.wrSteps 7#32 = .wrSteps 7#32) := by decide

/-- The slots where the clauses begin and end. -/
theorem witness_WriteReachesItsSlotOnly :
    idle.phase = .idle ∧ (2#4).toNat = 2 ∧ (3 ≤ (3#4).toNat ∧ (3#4).toNat ≤ 7) ∧ (3 ≤ (7#4).toNat ∧ (7#4).toNat ≤ 7) ∧
      (8#4).toNat = 8 ∧ 9 ≤ (9#4).toNat ∧ 9 ≤ (15#4).toNat := by decide

theorem witness_IllegalWordSetsIllcmd :
    idle.phase = .idle ∧ (0x10#32 : Word).extractLsb' 4 28 ≠ 0#28 ∧ (0x80000000#32 : Word).extractLsb' 4 28 ≠ 0#28 ∧
      0xB ≤ ((0xB#32 : Word).extractLsb' 0 4).toNat ∧ 0xB ≤ ((0xF#32 : Word).extractLsb' 0 4).toNat := by decide

theorem witness_FixedColoursTransmit :
    ((ready 0#7 0#32 0#32 0#32 0#32 0#32 0#16).phase = .idle ∧ (0#7).toNat ≤ 100) ∧
    ((ready 100#7 0#32 0#32 0#32 0#32 0#32 0#16).phase = .idle ∧
      (ready 100#7 0#32 0#32 0#32 0#32 0#32 0#16).brightP.toNat ≤ 100) := by decide

theorem witness_SetTransmitsScaledColour : (ready 50#7 300#32 0xFFFFFFFC#32 101#32 0#32 0#32 0#16).phase = .idle := by decide

theorem witness_BlinkStarts :
    (idle.phase = .idle ∧ idle.count = 0#32) ∧
    ((ready 20#7 1#32 1#32 1#32 0#32 1#32 0#16).phase = .idle ∧ (ready 20#7 1#32 1#32 1#32 0#32 1#32 0#16).count ≠ 0#32) := by
  decide

theorem witness_PulseStarts :
    (idle.phase = .idle ∧ idle.steps = 0#16) ∧
    ((ready 0#7 1#32 1#32 1#32 0#32 0#32 1#16).phase = .idle ∧ (ready 0#7 1#32 1#32 1#32 0#32 0#32 1#16).steps ≠ 0#16) := by
  decide

/-- Every clause at a boundary word, in a state that meets it. -/
theorem witness_CmdWriteChecksInOrder :
    State.reset.phase ≠ .idle ∧ (idle.phase = .idle ∧ idle.steps = 0#16 ∧ idle.count = 0#32) ∧
      (11 ≤ (11#32).toNat ∧ (10#32).toNat = 10 ∧ (8#32).toNat ≤ 8 ∧ (9#32).toNat = 9) ∧
      ((9#32).toNat ≤ 10 ∧ ((9#32).toNat = 10 → idle.steps ≠ 0#16)) ∧
      ((ready 20#7 1#32 1#32 1#32 0#32 1#32 1#16).phase = .idle ∧
        (ready 20#7 1#32 1#32 1#32 0#32 1#32 1#16).count ≠ 0#32 ∧
        (ready 20#7 1#32 1#32 1#32 0#32 1#32 1#16).steps ≠ 0#16) := by decide

theorem witness_PseudoInstructions :
    idle.phase = .idle ∧ (0 < 2 ∧ (-2 : Int) ^ 31 ≤ 150 ∧ (150 : Int) < 2 ^ 31) ∧ ¬ ((2 : Nat) : Int) ∣ 41 := by decide

theorem witness_ExactScalerIsFloor :
    (100#7).toNat ≤ 100 ∧ (1 ≤ (65535#16).toNat ∧ (65535#32).toNat ≤ (65535#16).toNat) ∧
      (1 ≤ (1#16).toNat ∧ (0#32).toNat ≤ (1#16).toNat) := by decide

theorem witness_ScalerLaws :
    (255 ≤ 255 ∧ 100 ≤ 100 ∧ 254 ≤ 255 ∧ 99 ≤ 100) ∧ (1 ≤ 1 ∧ 1 ≤ 65535 ∧ 65535 ≤ 65535) := by decide

theorem witness_ModesDifferAtTwelvePairs : 100 ≤ 255 ∧ 29 ≤ 100 := by decide

theorem witness_RampModesDifferByOne :
    255 ≤ 255 ∧ 1 ≤ 60 ∧ 60 ≤ 100 ∧ 1 ≤ 3 ∧ 3 ≤ 65535 ∧ 1 ≤ 3 ∧ 255 * 60 * 1 % (100 * 3) = 0 := by decide

/-- A tie too: 2^53 - 1/2 is halfway between two binary64 values. -/
theorem witness_RoundsToNearestEven : (0 < 100 ∧ 29 < 2 ^ 53 * 100) ∧ (0 < 2 ∧ 2 ^ 54 - 1 < 2 ^ 53 * 2) := by decide

/-- The three clauses: 2 ticks to go, the last one, and no wait (a pending transmit; a wait at 0). -/
theorem witness_CountedTick :
    ((waitingIn .blinkOn 2#32).phase = .blinkOn ∧ (waitingIn .blinkOn 2#32).txp = false ∧
      2 ≤ (waitingIn .blinkOn 2#32).waitcnt.toNat) ∧
    ((waitingIn .rampDown 1#32).phase = .rampDown ∧ (waitingIn .rampDown 1#32).txp = false ∧
      (waitingIn .rampDown 1#32).waitcnt.toNat = 1) ∧
    ¬ (((pendingIn .blinkOn).phase = .blinkOn ∨ (pendingIn .blinkOn).phase = .blinkOff ∨
      (pendingIn .blinkOn).phase = .rampUp ∨ (pendingIn .blinkOn).phase = .rampDown) ∧ (pendingIn .blinkOn).txp = false) ∧
    (waitingIn .rampUp 0#32).waitcnt.toNat = 0 := by decide

theorem witness_OtherTicksDiscarded :
    idle.phase = .idle ∧ (pendingIn .single).phase = .single ∧ (pendingIn .finalOff).phase = .finalOff ∧
      State.reset.phase = .resetOff ∧ (pendingIn .blinkOn).txp = true ∧ (waitingIn .blinkOn 0#32).waitcnt = 0#32 := by decide

/-- The three clauses: no wait, a wait, and a wait of zero ticks. -/
theorem witness_AnswerOk :
    ((pendingIn .single).txp = true ∧ (pendingIn .single).txlog = [⟨Rgb.off, .ok⟩] ++ [⟨Rgb.off, .pending⟩] ∧
      (pendingIn .single).phase = .single) ∧
    (({ pendingIn .blinkOn with ld := 1#32 } : State).txp = true ∧ ({ pendingIn .blinkOn with ld := 1#32 } : State).ld ≠ 0#32 ∧
      ({ pendingIn .blinkOn with ld := 1#32 } : State).txlog = [⟨Rgb.off, .ok⟩] ++ [⟨Rgb.off, .pending⟩]) ∧
    ((pendingIn .rampDown).txp = true ∧ (pendingIn .rampDown).phase = .rampDown ∧ (pendingIn .rampDown).ld = 0#32) := by decide

theorem witness_AnswerFail :
    (pendingIn .blinkOff).txp = true ∧ (pendingIn .blinkOff).txlog = [⟨Rgb.off, .ok⟩] ++ [⟨Rgb.off, .pending⟩] := by decide

theorem witness_BlinkAdvances :
    (waitingIn .blinkOn 1#32).phase = .blinkOn ∧
    (({ waitingIn .blinkOff 1#32 with ln := 2#32 } : State).phase = .blinkOff ∧
      ({ waitingIn .blinkOff 1#32 with ln := 2#32 } : State).idx.toNat + 1 < 2) ∧
    ((waitingIn .blinkOff 1#32).phase = .blinkOff ∧
      (waitingIn .blinkOff 1#32).ln.toNat ≤ (waitingIn .blinkOff 1#32).idx.toNat + 1) := by decide

theorem witness_PulseAdvances :
    ((waitingIn .rampUp 1#32).phase = .rampUp ∧ (waitingIn .rampUp 1#32).idx.toNat < (waitingIn .rampUp 1#32).ls.toNat) ∧
    (({ waitingIn .rampUp 1#32 with idx := 1#32 } : State).phase = .rampUp ∧
      ({ waitingIn .rampUp 1#32 with idx := 1#32 } : State).ls.toNat ≤ 1) ∧
    (({ waitingIn .rampDown 1#32 with idx := 1#32 } : State).phase = .rampDown ∧
      0 < ({ waitingIn .rampDown 1#32 with idx := 1#32 } : State).idx.toNat) ∧
    ((waitingIn .rampDown 1#32).phase = .rampDown ∧ (waitingIn .rampDown 1#32).idx.toNat = 0) := by decide

theorem witness_ResetState : 3 ≤ (3#4).toNat ∧ 3 ≤ (15#4).toNat := by decide

/-- One cycle with a wait of 2 ticks, 3 discarded ticks before the first answer. -/
theorem witness_BlinkRunsToTheEnd :
    (ready 20#7 255#32 0#32 0#32 2#32 1#32 0#16).phase = .idle ∧
      (ready 20#7 255#32 0#32 0#32 2#32 1#32 0#16).count ≠ 0#32 ∧
      [3, 0].length = 2 * (ready 20#7 255#32 0#32 0#32 2#32 1#32 0#16).count.toNat := by decide

theorem witness_BlinkBusyUntilTheEnd :
    (ready 20#7 255#32 0#32 0#32 2#32 1#32 0#16).phase = .idle ∧
      (ready 20#7 255#32 0#32 0#32 2#32 1#32 0#16).count ≠ 0#32 ∧
      [3, 0].length = 2 * (ready 20#7 255#32 0#32 0#32 2#32 1#32 0#16).count.toNat ∧
      8 < (phasesEvents (ready 20#7 255#32 0#32 0#32 2#32 1#32 0#16).delay.toNat [3, 0]).length := by decide

theorem witness_PulseRunsToTheEnd :
    (ready 0#7 0#32 0#32 255#32 1#32 0#32 1#16).phase = .idle ∧
      (ready 0#7 0#32 0#32 255#32 1#32 0#32 1#16).steps ≠ 0#16 ∧
      [2, 0, 1, 0].length = 2 * ((ready 0#7 0#32 0#32 255#32 1#32 0#32 1#16).steps.toNat + 1) := by decide

theorem witness_SilentPrimitiveHangs :
    (pendingIn .rampUp).txp = true ∧ (pendingIn .rampUp).phase ≠ .idle ∧
      ∀ e ∈ [Event.tick, .access 0x10#5 0#32], e = .tick ∨ ∃ key data, e = .access key data := by
  refine ⟨rfl, by decide, fun e he => ?_⟩
  rcases List.mem_cons.mp he with h | h
  · exact .inl h
  · exact .inr ⟨_, _, List.mem_singleton.mp h⟩

theorem witness_StoppedTickHangs :
    (waitingIn .blinkOff 1#32).txp = false ∧ (waitingIn .blinkOff 1#32).phase ≠ .idle ∧
      ∀ e ∈ [Event.access 0x10#5 0#32], ∃ key data, e = .access key data :=
  ⟨rfl, by decide, fun _ he => ⟨_, _, List.mem_singleton.mp he⟩⟩

/-- An idle state that meets the invariants and takes a step. -/
theorem witness_StepKeepsInv :
    ∃ t, Inv (idleThen .tick) ∧ step (idleThen .tick) = .next t :=
  ⟨{ idleThen .tick with inputs := [] },
    ⟨⟨by decide, by decide, by decide, by decide⟩,
      ⟨by decide, by decide, by decide, by decide, by decide, by decide, by decide, by decide⟩,
      ⟨by decide, by decide, by decide, by decide, by decide, by decide⟩,
      ⟨by decide, by decide⟩, ⟨by decide, by decide, by decide⟩⟩, rfl⟩

/-- A state in the middle of a pulse that meets the invariants: RAMP_UP(0), 1 tick to go. -/
def pulsing : State :=
  { waitingIn .rampUp 1#32 with
    inputs := [.tick], delay := 1#32, steps := 1#16, lp := 20#7, lpm := 20#7 }

theorem witness_StepKeepsInv_pulsing : ∃ t, Inv pulsing ∧ step pulsing = .next t :=
  ⟨_, ⟨⟨by decide, by decide, by decide, by decide⟩,
      ⟨by decide, by decide, by decide, by decide, by decide, by decide, by decide, by decide⟩,
      ⟨by decide, by decide, by decide, by decide, by decide, by decide⟩,
      ⟨by decide, by decide⟩, ⟨by decide, by decide, by decide⟩⟩, rfl⟩

/-- ReachableStatesMeetR33, ReachableBrightInRange and ConfigurationIsConstant: a run of two steps, from power-up into a
pending SINGLE. -/
def booted : State := State.powerUp defaultConfig [.txOk, busWrite 0#4 0x7#32]
theorem witness_ReachableStatesMeetR33 :
    ∃ s, Host.Core.run Sys2Proof.core 2 booted = .next s ∧ s.txp = true ∧ s.phase = .single := ⟨_, rfl, by decide⟩
theorem witness_ReachableBrightInRange : ∃ s, Host.Core.run Sys2Proof.core 1 booted = .next s ∧ s.phase = .idle :=
  ⟨_, rfl, by decide⟩
theorem witness_ConfigurationIsConstant : ∃ s, Host.Core.run Sys2Proof.core 2 booted = .next s := ⟨_, rfl⟩

/-- Each of the four sticky bits is set by some step. -/
theorem witness_StickyBitsSetByTheirCondition :
    (∃ t, step { pendingIn .single with inputs := [.txFail] } = .next t ∧ t.txfail = true) ∧
    (∃ t, step (idleThen (busWrite 0#4 0xA#32)) = .next t ∧ t.invarg = true) ∧
    (∃ t, step { pendingIn .single with inputs := [busWrite 2#4 0#32] } = .next t ∧ t.busyerr = true) ∧
    (∃ t, step (idleThen (busWrite 0#4 0xB#32)) = .next t ∧ t.illcmd = true) ∧
    idle.txfail = false ∧ idle.invarg = false ∧ idle.busyerr = false ∧ idle.illcmd = false :=
  ⟨⟨_, rfl, by decide⟩, ⟨_, rfl, by decide⟩, ⟨_, rfl, by decide⟩, ⟨_, rfl, by decide⟩, by decide⟩

theorem witness_StickyBitsClearedByHostOrReset :
    ∃ t, step { idleThen (busWrite 1#4 0xF00#32) with txfail := true } = .next t ∧
      sticky .transmitFailure { idleThen (busWrite 1#4 0xF00#32) with txfail := true } = true ∧
      sticky .transmitFailure t = false := ⟨_, rfl, by decide⟩

theorem witness_OnlyHostAndResetWriteBright :
    ∃ t, step (idleThen (busWrite 2#4 57#32)) = .next t ∧ t.brightP ≠ (idleThen (busWrite 2#4 57#32)).brightP :=
  ⟨_, rfl, by decide⟩

/-- Each argument register is changed by some step that is no Reset. -/
theorem witness_OnlyHostAndResetWriteArguments :
    (∃ t, step (idleThen (busWrite 3#4 9#32)) = .next t ∧ t.chR ≠ 0#32) ∧
    (∃ t, step (idleThen (busWrite 4#4 9#32)) = .next t ∧ t.chG ≠ 0#32) ∧
    (∃ t, step (idleThen (busWrite 5#4 9#32)) = .next t ∧ t.chB ≠ 0#32) ∧
    (∃ t, step (idleThen (busWrite 6#4 9#32)) = .next t ∧ t.delay ≠ 0#32) ∧
    (∃ t, step (idleThen (busWrite 7#4 9#32)) = .next t ∧ t.count ≠ 0#32) ∧
    (∃ t, step (idleThen (busWrite 8#4 9#32)) = .next t ∧ t.steps ≠ 0#16) ∧
    nextEvent (idleThen (busWrite 8#4 9#32)) ≠ some .reset :=
  ⟨⟨_, rfl, by decide⟩, ⟨_, rfl, by decide⟩, ⟨_, rfl, by decide⟩, ⟨_, rfl, by decide⟩, ⟨_, rfl, by decide⟩,
    ⟨_, rfl, by decide⟩, by decide⟩

theorem witness_SlotChangesOnlyByTransmit :
    ∃ t, step (idleThen (busWrite 0#4 0x7#32)) = .next t ∧ t.slot ≠ (idleThen (busWrite 0#4 0x7#32)).slot :=
  ⟨_, rfl, by decide⟩

/-- The three ways a busy block becomes idle. -/
theorem witness_NothingCancelsAnEffect :
    (∃ t, step { pendingIn .blinkOn with inputs := [.txFail] } = .next t ∧ t.phase = .idle) ∧
    (∃ t, step { pendingIn .finalOff with inputs := [.txOk] } = .next t ∧ t.phase = .idle) ∧
    (∃ t, step { waitingIn .blinkOff 1#32 with inputs := [.tick] } = .next t ∧ t.phase = .idle) ∧
    (pendingIn .blinkOn).phase ≠ .idle ∧ (pendingIn .finalOff).phase ≠ .idle ∧ (waitingIn .blinkOff 1#32).phase ≠ .idle :=
  ⟨⟨_, rfl, by decide⟩, ⟨_, rfl, by decide⟩, ⟨_, rfl, by decide⟩, by decide⟩

end Witnesses

end Sys2Proof.Tests
end

