-- ==== Sys2Proof/Proofs/StatusWord.lean ====
section
/-! PROOFS. The bits of the STATUS word (10_state.md R30, R31; 40_brightness_and_registers.md R92). -/

namespace Sys2Proof.Machine

/-- `BUSY` by the phase (10_state.md R30). -/
theorem busy_eq_decide (s : State) : busy s = decide (s.phase ≠ .idle) := by
  cases h : s.phase <;> simp [busy, h]

/-- `STATUS.ARITH` by the configuration (40_brightness_and_registers.md R92). -/
theorem arithBit_eq_decide (s : State) : arithBit s = decide (s.cfg.scaleArith = .binary64) := by
  cases h : s.cfg.scaleArith <;> simp [arithBit, h]

/-- The table of 40_brightness_and_registers.md R92, bit by bit; `statusWord_getLsbD` ties it to the word. -/
def statusBit (s : State) : Nat → Bool
  | 0 => busy s
  | 1 => (phaseCode s.phase).getLsbD 0
  | 2 => (phaseCode s.phase).getLsbD 1
  | 3 => (phaseCode s.phase).getLsbD 2
  | 4 => s.txp
  | 8 => s.txfail
  | 9 => s.invarg
  | 10 => s.busyerr
  | 11 => s.illcmd
  | 16 => arithBit s
  | _ => false

/-- Each reserved bit lies in one of the constant fields of the word. -/
theorem statusWord_getLsbD_reserved (s : State) {n : Nat}
    (h : (5 ≤ n ∧ n ≤ 7) ∨ (12 ≤ n ∧ n ≤ 15) ∨ 17 ≤ n) : (statusWord s).getLsbD n = false := by
  obtain ⟨hlow, hhigh⟩ | ⟨hlow, hhigh⟩ | hlow := h <;>
    simp (disch := omega) only [statusWord, BitVec.getLsbD_append, if_pos, if_neg, BitVec.getLsbD_zero]

/-- The fields concatenated by `statusWord` fall on the bits of the table. -/
theorem statusWord_getLsbD (s : State) (n : Nat) : (statusWord s).getLsbD n = statusBit s n := by
  unfold statusBit
  split
  case h_11 =>
    simp only [imp_false] at *
    exact statusWord_getLsbD_reserved s (by omega)
  all_goals
    simp (disch := omega) only [statusWord, BitVec.getLsbD_append, if_pos, if_neg, BitVec.getLsbD_ofBool,
      Nat.reduceSub, decide_true, Bool.true_and]

/-- The field STATUS[3:1] is the code of the phase (10_state.md R31). -/
theorem statusWord_phaseField (s : State) : (statusWord s).extractLsb' 1 3 = phaseCode s.phase := by
  apply BitVec.eq_of_getLsbD_eq
  intro i hi
  rw [BitVec.getLsbD_extractLsb', statusWord_getLsbD]
  interval_cases i <;> rfl

/-- The field STATUS[3:1] read off the word's value. -/
theorem statusWord_div_mod (s : State) : (statusWord s).toNat / 2 % 8 = (phaseCode s.phase).toNat := by
  rw [← statusWord_phaseField, BitVec.extractLsb'_toNat, Nat.shiftRight_eq_div_pow]

/-- Settles O15: the single bits and the reserved ones by the table, STATE as a number by its field. -/
theorem statusWordBits : Obligations.StatusWordBits := by
  intro s
  have hbit := statusWord_getLsbD s
  refine ⟨?busy, ?phase, hbit 4, hbit 8, hbit 9, hbit 10, hbit 11, ?arith, fun _ => statusWord_getLsbD_reserved s⟩
  case busy => exact (hbit 0).trans (busy_eq_decide s)
  case phase =>
    rw [statusWord_div_mod]
    cases s.phase <;> rfl
  case arith => exact (hbit 16).trans (arithBit_eq_decide s)

end Sys2Proof.Machine
end

