-- ==== Sys2Proof/Proofs/RegisterWrites.lean ====
section
/-! PROOFS. The writes of STATUS, BRIGHT and the argument registers (40_brightness_and_registers.md R91, R93, R95 to R98). -/

namespace Sys2Proof.Machine

/-- A two-sided clamp is a `max` of a `min` when its bounds are in order. -/
theorem clamp_eq_max_min (v : Int) {lo hi : Int} (h : lo ≤ hi) : clamp v lo hi = max lo (min hi v) := by
  unfold clamp
  split_ifs <;> omega

/-- The clamped percent fits the 7 bits of BRIGHT.P. -/
theorem clampPercent_toNat (w : Word) : ((clampPercent w).toNat : Int) = max 0 (min 100 w.toInt) := by
  rw [clampPercent, BitVec.toNat_ofInt, clamp_eq_max_min _ (by decide)]
  omega

/-- The low half of a word as a remainder (40_brightness_and_registers.md R98). -/
theorem extractLsb'_low16 (w : Word) : w.extractLsb' 0 16 = BitVec.ofNat 16 (w.toNat % 65536) := by
  apply BitVec.eq_of_toNat_eq
  rw [BitVec.extractLsb'_toNat, BitVec.toNat_ofNat, Nat.shiftRight_zero, Nat.mod_mod]

/-- Busy sets BUSYERR and no other sticky bit (60_exceptions.md R212). -/
theorem raiseCondition_busy (s : State) : raiseCondition .busy s = { s with busyerr := true } := by
  simp [raiseCondition]

/-- Write-1-to-clear, bit by bit (40_brightness_and_registers.md R93). -/
theorem clearSticky_eq_ite (w : Word) (s : State) :
    clearSticky w s = { s with
      txfail := if w.getLsbD 8 then false else s.txfail
      invarg := if w.getLsbD 9 then false else s.invarg
      busyerr := if w.getLsbD 10 then false else s.busyerr
      illcmd := if w.getLsbD 11 then false else s.illcmd } := by
  have hclear : ∀ b c : Bool, (b && !c) = if c then false else b := by decide
  simp only [clearSticky, hclear]

/-- No instruction stops. -/
theorem exec_answers (i : Instr) (s : State) : ∃ t, exec i s = .next t := by
  cases i <;> exact ⟨_, rfl⟩

/-- No read is dropped while busy. -/
theorem droppedWhenBusy_readRow (widx : BitVec 4) : droppedWhenBusy (readRow widx) = false := by
  revert widx
  decide

/-- Busy serialisation (20_memory.md R57): of the effects an instruction can have, only the drop is left. -/
theorem exec_of_busy {i : Instr} {s : State} (hi : droppedWhenBusy i = true) (hs : s.phase ≠ .idle) :
    exec i s = .next { s with busyerr := true } := by
  obtain ⟨t, ht⟩ := exec_answers i s
  rw [ht, ← raiseCondition_busy]
  cases exec_cases ht with
  | dropped => rfl
  | read widx hrow => rw [hrow, droppedWhenBusy_readRow] at hi; cases hi
  | ignored _ hkept => rw [hkept] at hi; cases hi
  | cleared w hrow => rw [hrow] at hi; cases hi
  | accepted _ _ hidle => exact absurd hidle hs
  | bright _ _ hidle | chR _ _ hidle | chG _ _ hidle | chB _ _ hidle | delay _ _ hidle | count _ _ hidle
  | steps _ _ hidle => exact absurd hidle hs

section IdleWrites

variable (w : Word) {s : State} (h : s.phase = .idle)
include h

theorem exec_wrBright_of_idle : exec (.wrBright w) s = .next { s with brightP := clampPercent w } :=
  congrArg Host.Outcome.next (unlessBusy_idle h)

theorem exec_wrChR_of_idle : exec (.wrChR w) s = .next { s with chR := w } :=
  congrArg Host.Outcome.next (unlessBusy_idle h)

theorem exec_wrChG_of_idle : exec (.wrChG w) s = .next { s with chG := w } :=
  congrArg Host.Outcome.next (unlessBusy_idle h)

theorem exec_wrChB_of_idle : exec (.wrChB w) s = .next { s with chB := w } :=
  congrArg Host.Outcome.next (unlessBusy_idle h)

theorem exec_wrDelay_of_idle : exec (.wrDelay w) s = .next { s with delay := w } :=
  congrArg Host.Outcome.next (unlessBusy_idle h)

theorem exec_wrCount_of_idle : exec (.wrCount w) s = .next { s with count := w } :=
  congrArg Host.Outcome.next (unlessBusy_idle h)

theorem exec_wrSteps_of_idle :
    exec (.wrSteps w) s = .next { s with steps := BitVec.ofNat 16 (w.toNat % 65536) } := by
  rw [← extractLsb'_low16]
  exact congrArg Host.Outcome.next (unlessBusy_idle h)

end IdleWrites

/-- Settles O18: the clamped percent is the witness while idle, the drop is the only effect while busy. -/
theorem wrBrightStoresClampedPercent : Obligations.WrBrightStoresClampedPercent := fun w _ =>
  ⟨decodeAccess_write 2#4 w,
    fun hidle => ⟨clampPercent w, clampPercent_toNat w, exec_wrBright_of_idle w hidle⟩,
    exec_of_busy rfl⟩

/-- Settles O19: one equation per register while idle, the drop as the only effect while busy. -/
theorem argumentWritesStore : Obligations.ArgumentWritesStore := by
  intro w s
  refine ⟨?decode, fun hidle => ?idle, fun hbusy i hi => exec_of_busy ?dropped hbusy⟩
  case decode =>
    exact ⟨decodeAccess_write 3#4 w, decodeAccess_write 4#4 w, decodeAccess_write 5#4 w,
      decodeAccess_write 6#4 w, decodeAccess_write 7#4 w, decodeAccess_write 8#4 w⟩
  case idle =>
    exact ⟨exec_wrChR_of_idle w hidle, exec_wrChG_of_idle w hidle, exec_wrChB_of_idle w hidle,
      exec_wrDelay_of_idle w hidle, exec_wrCount_of_idle w hidle, exec_wrSteps_of_idle w hidle⟩
  case dropped =>
    have hall : ∀ j ∈ [Instr.wrChR w, .wrChG w, .wrChB w, .wrDelay w, .wrCount w, .wrSteps w],
        droppedWhenBusy j = true := by simp [droppedWhenBusy]
    exact hall i hi

/-- Settles O20: WR STATUS is `clearSticky`, in every phase. -/
theorem wrStatusClearsStickyBits : Obligations.WrStatusClearsStickyBits := fun w s =>
  ⟨decodeAccess_write 1#4 w, congrArg Host.Outcome.next (clearSticky_eq_ite w s)⟩

end Sys2Proof.Machine
end

