-- ==== Sys2Proof/Proofs/ChannelClamp.lean ====
section
/-! PROOFS. The clamp of a channel word (41_scale_and_transmit.md R120). -/

namespace Sys2Proof.Machine

/-- The cut to `n` bits loses nothing of a value clamped to a range that fits them. -/
theorem toNat_ofInt_clamp {n : Nat} (v : Int) {hi : Int} (hpos : 0 ≤ hi) (hfit : hi < 2 ^ n) :
    ((BitVec.ofInt n (clamp v 0 hi)).toNat : Int) = max 0 (min hi v) := by
  have hlow : 0 ≤ max 0 (min hi v) := le_max_left _ _
  have hhigh : max 0 (min hi v) < 2 ^ n := (max_le hpos (min_le_left _ _)).trans_lt hfit
  rw [clamp_eq_max_min v hpos, BitVec.toNat_ofInt, Nat.cast_pow, Nat.cast_ofNat, Int.emod_eq_of_lt hlow hhigh,
    Int.toNat_of_nonneg hlow]

/-- Settles O31: 0..255 is the range of the channel's 8 bits. -/
theorem channelClamp : Obligations.ChannelClamp := fun v =>
  toNat_ofInt_clamp v.toInt (by decide) (by decide)

end Sys2Proof.Machine
end

