-- ==== Sys2Proof/Proofs/EffectTimer.lean ====
section
/-! PROOFS. The tick (43_effect_timer.md R163, R164) and the answer OK (41_scale_and_transmit.md R127;
43_effect_timer.md R161, R162, R165). -/

namespace Sys2Proof.Machine

/-- The waiting phases by name (10_state.md R31). -/
theorem waiting_iff (p : Phase) :
    waiting p = true ↔ p = .blinkOn ∨ p = .blinkOff ∨ p = .rampUp ∨ p = .rampDown := by
  cases p <;> simp [waiting]

/-- The unwaited phases by name (10_state.md R31). -/
theorem waiting_eq_false_iff (p : Phase) :
    waiting p = false ↔ p = .idle ∨ p = .single ∨ p = .finalOff ∨ p = .resetOff := by
  cases p <;> simp [waiting]

theorem ne_idle_of_waiting {p : Phase} (h : waiting p = true) : p ≠ .idle := by
  rintro rfl
  cases h

section Tick

variable {s : State}

/-- A tick outside a running wait is discarded (R164). -/
theorem tick_of_no_wait (h : waiting s.phase = false ∨ s.txp = true ∨ s.waitcnt.toNat = 0) : tick s = s := by
  refine if_neg fun ⟨hwaiting, htxp, hcount⟩ => ?_
  obtain hunwaited | hpending | hzero := h
  · rw [hunwaited] at hwaiting; cases hwaiting
  · rw [hpending] at htxp; cases htxp
  · omega

variable (hw : waiting s.phase = true) (ht : s.txp = false)
include hw ht

/-- A tick with more than one to go only counts (R163). -/
theorem tick_of_two_le (hc : 2 ≤ s.waitcnt.toNat) :
    tick s = { s with waitcnt := BitVec.ofNat 32 (s.waitcnt.toNat - 1) } := by
  have hsub : s.waitcnt - 1#32 = BitVec.ofNat 32 (s.waitcnt.toNat - 1) := by bv_omega
  have hleft : s.waitcnt - 1#32 ≠ 0#32 := by bv_omega
  rw [← hsub]
  exact (if_pos ⟨hw, ht, by omega⟩).trans (if_neg hleft)

/-- The last tick of a wait ends it (R163). -/
theorem tick_of_eq_one (hc : s.waitcnt.toNat = 1) : tick s = advance { s with waitcnt := 0#32 } := by
  have hsub : s.waitcnt - 1#32 = 0#32 := by bv_omega
  rw [← hsub]
  exact (if_pos ⟨hw, ht, by omega⟩).trans (if_pos hsub)

end Tick

section PhaseDone

variable {s : State}

/-- An answered phase without a wait is over (R165). -/
theorem phaseDone_of_not_waiting (h : s.phase ≠ .idle) (hw : waiting s.phase = false) : phaseDone s = finish s := by
  simpa [hw] using phaseDone_cases s h

/-- A wait of zero ticks is over at once (R162). -/
theorem phaseDone_of_zero_delay (hw : waiting s.phase = true) (hd : s.ld = 0#32) : phaseDone s = advance s := by
  simpa [hw, hd] using phaseDone_cases s (ne_idle_of_waiting hw)

/-- A waiting phase starts its wait of LD ticks (R162). -/
theorem phaseDone_of_delay (hw : waiting s.phase = true) (hd : s.ld ≠ 0#32) :
    phaseDone s = { s with waitcnt := s.ld } := by
  simpa [hw, hd] using phaseDone_cases s (ne_idle_of_waiting hw)

end PhaseDone

/-- An answer OK to the outstanding request, the last of TXLOG: the record of the answer, then the phase's own end
(41_scale_and_transmit.md R127). -/
theorem runEvent_txOk {s : State} {log : List TxEntry} {c : Rgb} {r : TxResult} (ht : s.txp = true)
    (hlog : s.txlog = log ++ [⟨c, r⟩]) :
    runEvent .txOk s =
      .next (phaseDone { s with txp := false, led := .known s.slot, txlog := log ++ [⟨c, .ok⟩] }) := by
  rw [← answerLast_append .ok log ⟨c, r⟩, ← hlog]
  exact if_pos ht

/-- Settles O37: by what is left of the wait. -/
theorem countedTick : Obligations.CountedTick := by
  intro s
  simp only [← waiting_iff]
  refine ⟨fun ⟨hw, ht⟩ hc => congrArg Host.Outcome.next (tick_of_two_le hw ht hc),
    fun ⟨hw, ht⟩ hc => congrArg Host.Outcome.next (tick_of_eq_one hw ht hc),
    fun h => congrArg Host.Outcome.next (tick_of_no_wait ?noWait)⟩
  case noWait => simpa only [not_and_or, Bool.not_eq_true, Bool.not_eq_false, or_assoc] using h

/-- Settles O38: each of the six conditions is one under which no wait runs. -/
theorem otherTicksDiscarded : Obligations.OtherTicksDiscarded := by
  intro s h
  have hzero : s.waitcnt.toNat = 0 ↔ s.waitcnt = 0#32 := BitVec.toNat_inj (y := 0#32)
  refine congrArg Host.Outcome.next (tick_of_no_wait ?_)
  rw [waiting_eq_false_iff, hzero]
  simpa only [or_assoc] using h

/-- Settles O39: the answer is recorded, then the phase finishes, waits LD ticks or advances. -/
theorem answerOk : Obligations.AnswerOk := by
  intro s log c ht hlog
  rw [runEvent_txOk ht hlog]
  refine ⟨fun hphase => congrArg Host.Outcome.next ?finishes, fun hphase =>
    ⟨fun hd => congrArg Host.Outcome.next ?waits, fun hd => congrArg Host.Outcome.next ?advances⟩⟩
  case finishes =>
    have hbusy : s.phase ≠ .idle := fun hidle => by simp [hidle] at hphase
    exact phaseDone_of_not_waiting hbusy ((waiting_eq_false_iff s.phase).mpr (.inr hphase))
  case waits => exact phaseDone_of_delay ((waiting_iff s.phase).mpr hphase) hd
  case advances => exact phaseDone_of_zero_delay ((waiting_iff s.phase).mpr hphase) hd

end Sys2Proof.Machine
end

