-- ==== Sys2Proof/Proofs/BlinkAdvance.lean ====
section
/-! PROOFS. Zero stays zero in the scale arithmetic (41_scale_and_transmit.md R124), and the end of a blink phase's wait
(44_blink.md R182, R183). -/

namespace Sys2Proof.Machine

section ScaleZero

theorem roundEven_zero_left (d : Nat) : roundEven 0 d = 0 := by
  simp [roundEven]

/-- The binary64 rounding of 0 is 0, at whatever scale it is held. -/
theorem rne64_zero_man (d : Nat) : (rne64 0 d).man = 0 := by
  simp [rne64, roundEven_zero_left]

theorem floor64_natMul64_zero (x : Binary64) : floor64 (natMul64 0 x) = 0 := by
  rw [floor64, natMul64, Nat.zero_mul, rne64_zero_man, Nat.zero_div]

theorem scaleNat_zero (a : ScaleArith) (p : Nat) : scaleNat a 0 p = 0 := by
  cases a with
  | exact => simp [scaleNat]
  | binary64 => exact floor64_natMul64_zero (rne64 p 100)

theorem scale_zero (a : ScaleArith) (p : BitVec 7) : scale a 0#8 p = 0#8 :=
  congrArg (BitVec.ofNat 8) (scaleNat_zero a p.toNat)

/-- The off triple transmitted is (0,0,0) for every LP, in both arithmetic modes (44_blink.md R182). -/
theorem scaledOff_eq_off (s : State) : scaledOff s = Rgb.off := by
  simp only [scaledOff, scale3, Rgb.off, scale_zero]

end ScaleZero

section Advance

variable {s : State}

/-- After the colour phase comes the off phase of the same cycle (R182). -/
theorem advance_of_blinkOn (hp : s.phase = .blinkOn) : advance s = enter .blinkOff s.idx Rgb.off s := by
  simpa [hp, scaledOff_eq_off] using advance_cases s (by rw [hp]; rfl)

variable (hp : s.phase = .blinkOff)
include hp

/-- After the off phase comes the colour phase of the next cycle, if there is one (R183). -/
theorem advance_of_blinkOff_of_lt (hi : s.idx.toNat + 1 < s.ln.toNat) :
    advance s = enter .blinkOn (BitVec.ofNat 32 (s.idx.toNat + 1)) (blinkColour s) s := by
  have hidx : s.idx + 1#32 = BitVec.ofNat 32 (s.idx.toNat + 1) := by bv_omega
  rw [← hidx]
  simpa [hp, hi, Nat.not_le.mpr hi] using advance_cases s (by rw [hp]; rfl)

/-- The off phase of the last cycle ends the effect (R183). -/
theorem advance_of_blinkOff_of_le (hi : s.ln.toNat ≤ s.idx.toNat + 1) : advance s = finish s := by
  simpa [hp, hi, Nat.not_lt.mpr hi] using advance_cases s (by rw [hp]; rfl)

end Advance

/-- Settles O41: by the phase, and after an off phase by whether a cycle is left. -/
theorem blinkAdvances : Obligations.BlinkAdvances := fun _ =>
  ⟨advance_of_blinkOn, advance_of_blinkOff_of_lt, advance_of_blinkOff_of_le⟩

end Sys2Proof.Machine
end

section
/-! PROOFS. Ramp index 0 is off in the ramp scaler (41_scale_and_transmit.md R124), the start of a pulse
(45_pulse.md R190 to R192) and the end of a ramp level's wait (45_pulse.md R194, R195). -/

namespace Sys2Proof.Machine

section RampIndexZero

/-- A product with a binary64 zero is rounded from 0. -/
theorem mul64_man_of_right_zero (x : Binary64) {y : Binary64} (hy : y.man = 0) : (mul64 x y).man = 0 := by
  rw [mul64, hy, Nat.mul_zero, rne64_zero_man]

theorem floor64_natMul64_of_man_zero (c : Nat) {x : Binary64} (hx : x.man = 0) : floor64 (natMul64 c x) = 0 := by
  rw [floor64, natMul64, hx, Nat.mul_zero, rne64_zero_man, Nat.zero_div]

/-- Index 0 gives 0 whatever the ceiling and the number of steps, in both arithmetic modes (R124). -/
theorem rampScaleNat_index_zero (a : ScaleArith) (c pm n : Nat) : rampScaleNat a c pm 0 n = 0 := by
  cases a with
  | exact => rw [rampScaleNat, Nat.mul_zero, Nat.zero_div]
  | binary64 => exact floor64_natMul64_of_man_zero c (mul64_man_of_right_zero (rne64 pm 100) (rne64_zero_man n))

theorem rampScale_index_zero (a : ScaleArith) (c : Byte) (pm : BitVec 7) (n : BitVec 16) :
    rampScale a c pm 0#32 n = 0#8 :=
  congrArg (BitVec.ofNat 8) (rampScaleNat_index_zero a c.toNat pm.toNat n.toNat)

/-- The first level of a ramp is (0,0,0) (45_pulse.md R190). -/
theorem rampLevel_zero (s : State) : rampLevel 0#32 s = Rgb.off := by
  simp only [rampLevel, rampScale3, Rgb.off, rampScale_index_zero]

end RampIndexZero

section Start

/-- InvalidArgument sets INVARG and no other sticky bit (60_exceptions.md R210). -/
theorem raiseCondition_invalidArgument (s : State) :
    raiseCondition .invalidArgument s = { s with invarg := true } := by
  simp [raiseCondition]

variable {s : State}

/-- A pulse of no steps is refused: nothing is latched or transmitted (R191). -/
theorem startPulse_of_steps_zero (h : s.steps = 0#16) : startPulse s = { s with invarg := true } := by
  rw [← raiseCondition_invalidArgument]
  simpa [h] using startPulse_cases s

/-- An accepted pulse starts dark, at index 0 of the way up (R190). -/
theorem startPulse_of_steps_ne_zero (h : s.steps ≠ 0#16) :
    startPulse s = enter .rampUp 0#32 Rgb.off (latchPulse s) := by
  rw [← rampLevel_zero (latchPulse s)]
  simpa [h] using startPulse_cases s

theorem exec_pulse_of_idle (h : s.phase = .idle) : exec .pulse s = .next (startPulse s) :=
  congrArg Host.Outcome.next (unlessBusy_idle h)

end Start

section Advance

variable {s : State}

section RampUp

variable (hp : s.phase = .rampUp)
include hp

/-- Below the top, the next level is one up (R194). -/
theorem advance_of_rampUp_of_lt (hi : s.idx.toNat < s.ls.toNat) :
    advance s = enter .rampUp (BitVec.ofNat 32 (s.idx.toNat + 1))
      (rampLevel (BitVec.ofNat 32 (s.idx.toNat + 1)) s) s := by
  have hidx : s.idx + 1#32 = BitVec.ofNat 32 (s.idx.toNat + 1) := by bv_omega
  rw [← hidx]
  simpa [hp, hi, Nat.not_le.mpr hi] using advance_cases s (by rw [hp]; rfl)

/-- At the top the ramp turns, and the top level is sent a second time (R194). -/
theorem advance_of_rampUp_of_le (hi : s.ls.toNat ≤ s.idx.toNat) :
    advance s = enter .rampDown (BitVec.ofNat 32 s.ls.toNat) (rampLevel (BitVec.ofNat 32 s.ls.toNat) s) s := by
  rw [BitVec.ofNat_toNat]
  simpa [hp, hi, Nat.not_lt.mpr hi] using advance_cases s (by rw [hp]; rfl)

end RampUp

section RampDown

variable (hp : s.phase = .rampDown)
include hp

/-- Above the bottom, the next level is one down (R195). -/
theorem advance_of_rampDown_of_pos (hi : 0 < s.idx.toNat) :
    advance s = enter .rampDown (BitVec.ofNat 32 (s.idx.toNat - 1))
      (rampLevel (BitVec.ofNat 32 (s.idx.toNat - 1)) s) s := by
  have hidx : s.idx - 1#32 = BitVec.ofNat 32 (s.idx.toNat - 1) := by bv_omega
  rw [← hidx]
  simpa [hp, hi, hi.ne'] using advance_cases s (by rw [hp]; rfl)

/-- After the bottom level comes the final off, dark for every LP (R195). -/
theorem advance_of_rampDown_of_eq_zero (hi : s.idx.toNat = 0) : advance s = enter .finalOff 0#32 Rgb.off s := by
  simpa [hp, hi, scaledOff_eq_off] using advance_cases s (by rw [hp]; rfl)

end RampDown

end Advance

/-- Settles O28: by whether STEPS is 0. -/
theorem pulseStarts : Obligations.PulseStarts := by
  intro s hidle
  rw [exec_pulse_of_idle hidle]
  exact ⟨fun hzero => congrArg Host.Outcome.next (startPulse_of_steps_zero hzero),
    fun hsteps => congrArg Host.Outcome.next (startPulse_of_steps_ne_zero hsteps)⟩

/-- Settles O42: by the direction of the ramp, and by whether its last index is reached. -/
theorem pulseAdvances : Obligations.PulseAdvances := fun _ =>
  ⟨advance_of_rampUp_of_lt, advance_of_rampUp_of_le, advance_of_rampDown_of_pos, advance_of_rampDown_of_eq_zero⟩

end Sys2Proof.Machine
end

