-- ==== Sys2Proof/Proofs/Conditions.lean ====
section
/-! PROOFS. Busy, IllegalCommand and TransmitFailure (60_exceptions.md R211 to R213): what each records, and that it
records nothing else. -/

namespace Sys2Proof.Machine

section RaiseCondition

variable (s : State)

/-- IllegalCommand sets ILLCMD and no other sticky bit (60_exceptions.md R213). -/
theorem raiseCondition_illegalCommand : raiseCondition .illegalCommand s = { s with illcmd := true } := by
  simp [raiseCondition]

/-- TransmitFailure sets TXFAIL and no other sticky bit (60_exceptions.md R211). -/
theorem raiseCondition_transmitFailure : raiseCondition .transmitFailure s = { s with txfail := true } := by
  simp [raiseCondition]

end RaiseCondition

section CommandWords

variable (w : Word)

/-- The row of a command word is a command, legal or not, and so is dropped while busy (20_memory.md R57). -/
theorem droppedWhenBusy_commandRow : droppedWhenBusy (commandRow w) = true := by
  unfold commandRow
  split
  next => rfl
  next => split <;> rfl

variable {w}

/-- A word with a reserved bit set is illegal (30_encoding.md R71). -/
theorem decodeCommand_of_rsv_ne_zero (h : w.extractLsb' 4 28 ≠ 0#28) : decodeCommand w = .illegal := if_pos h

/-- A word with OP above PULSE's is illegal, whatever its reserved bits (30_encoding.md R71): such an OP has bit 3 set, so
the word is no fixed colour, and it is none of the three codes that remain. -/
theorem decodeCommand_of_le_op (h : 0xB ≤ (w.extractLsb' 0 4).toNat) : decodeCommand w = .illegal := by
  have hop : ∀ op : BitVec 4, 0xB ≤ op.toNat → op.getLsbD 3 = true ∧ op ≠ 0x8#4 ∧ op ≠ 0x9#4 ∧ op ≠ 0xA#4 := by decide
  obtain ⟨hbit, hset, hblink, hpulse⟩ := hop _ h
  have hfixed : w.getLsbD 3 = true := by simpa using hbit
  simp [decodeCommand, hfixed, hset, hblink, hpulse]

end CommandWords

/-- A read asks for no command. -/
theorem acceptedCommand_readRow (widx : BitVec 4) : acceptedCommand (readRow widx) = none := by
  revert widx
  decide

/-- The accept of a command (40_brightness_and_registers.md R99): of the effects an instruction can have, only the start of
its command is left while idle. -/
theorem exec_of_acceptedCommand {i : Instr} {c : Command} {s : State} (hi : acceptedCommand i = some c)
    (hs : s.phase = .idle) : exec i s = .next (startCommand c s) := by
  obtain ⟨t, ht⟩ := exec_answers i s
  rw [ht]
  cases exec_cases ht with
  | accepted d hd => rw [hd] at hi; cases hi; rfl
  | dropped _ hbusy => exact absurd hs hbusy
  | read widx hrow => rw [hrow, acceptedCommand_readRow] at hi; cases hi
  | ignored hnone => rw [hnone] at hi; cases hi
  | cleared w hrow | bright w hrow | chR w hrow | chG w hrow | chB w hrow | delay w hrow | count w hrow
  | steps w hrow => rw [hrow] at hi; cases hi

/-- An instruction that asks for an illegal command, with the block idle (60_exceptions.md R213). -/
theorem exec_of_illegal {i : Instr} {s : State} (hs : s.phase = .idle) (hi : acceptedCommand i = some .illegal) :
    exec i s = .next { s with illcmd := true } := by
  rw [← raiseCondition_illegalCommand]
  exact exec_of_acceptedCommand hi hs

/-- TransmitFailure ends the running operation as `Finish` does, in every phase (60_exceptions.md R211). -/
theorem txRespFail_eq_finish (s : State) :
    txRespFail s =
      finish { s with txp := false, txfail := true, led := .unknown, txlog := answerLast .fail s.txlog } :=
  congrArg finish (raiseCondition_transmitFailure _)

/-- An answer FAIL to the outstanding request, the last of TXLOG: the record of the answer, then the end of the operation
(60_exceptions.md R211). -/
theorem runEvent_txFail {s : State} {log : List TxEntry} {c : Rgb} {r : TxResult} (ht : s.txp = true)
    (hlog : s.txlog = log ++ [⟨c, r⟩]) :
    runEvent .txFail s =
      .next (finish { s with txp := false, txfail := true, led := .unknown, txlog := log ++ [⟨c, .fail⟩] }) := by
  rw [← answerLast_append .fail log ⟨c, r⟩, ← hlog]
  exact (if_pos ht).trans (congrArg Host.Outcome.next (txRespFail_eq_finish s))

/-- Settles O22: each of the nine is an instruction that is dropped while busy. -/
theorem busyWritesAreDropped : Obligations.BusyWritesAreDropped := by
  intro s w i hbusy hi
  have hdropped : droppedWhenBusy i = true := by
    obtain rfl | rfl | rfl | rfl | rfl | rfl | rfl | rfl | rfl := hi
    case inr.inl => exact droppedWhenBusy_commandRow w
    all_goals rfl
  exact exec_of_busy hdropped hbusy

/-- Settles O24: the two kinds of illegal word decode alike, and an illegal row asks for the illegal command outright. -/
theorem illegalWordSetsIllcmd : Obligations.IllegalWordSetsIllcmd := by
  intro s hidle
  refine ⟨fun w hw => exec_of_illegal hidle (congrArg some ?illegal),
    exec_of_illegal hidle rfl, fun _ => exec_of_illegal hidle rfl, fun _ _ => exec_of_illegal hidle rfl⟩
  case illegal => exact hw.elim decodeCommand_of_rsv_ne_zero decodeCommand_of_le_op

/-- Settles O40: the answer is recorded and the operation finishes, whatever its phase. -/
theorem answerFail : Obligations.AnswerFail := fun _ _ _ _ => runEvent_txFail

end Sys2Proof.Machine
end

