-- ==== Sys2Proof/Proofs/Encoding.lean ====
section
/-! PROOFS. The byte decoder and the encoder are inverse to each other (30_encoding.md R70 to R77), and a command word
runs its row of the table (30_encoding.md R72, 40_brightness_and_registers.md R99). -/

namespace Sys2Proof

open Machine

section Bytes

/-- Four bytes are the command word they hold. -/
theorem decode_wordBytes (w : Word) : decode (wordBytes w) = .ok (commandRow w) :=
  congrArg (fun v => Except.ok (commandRow v)) (bytesWord_lanes w)

/-- Five bytes are the access they hold: every 5-bit key fits its byte. -/
theorem decode_keyBytes (key : BitVec 5) (data : Word) :
    decode (key.setWidth 8 :: wordBytes data) = .ok (decodeAccess key data) := by
  have hfits : (key.setWidth 8).toNat < 32 := by
    rw [BitVec.toNat_setWidth]
    omega
  have hkey : (key.setWidth 8).setWidth 5 = key := by
    revert key
    decide
  refine (if_pos hfits).trans ?_
  rw [bytesWord_lanes, hkey]

end Bytes

section CommandWords

/-- A command word is its reserved field and its OP (30_encoding.md R70). -/
theorem commandWord_split (w : Word) : w = w.extractLsb' 4 28 ++ w.extractLsb' 0 4 := by
  apply BitVec.eq_of_toNat_eq
  rw [BitVec.toNat_append, ← Nat.shiftLeft_add_eq_or_of_lt (BitVec.isLt _), Nat.shiftLeft_eq,
    BitVec.extractLsb'_toNat, BitVec.extractLsb'_toNat, Nat.shiftRight_eq_div_pow, Nat.shiftRight_zero]
  omega

/-- To show a fact of every command word, show it of those with a reserved bit set and of the sixteen others. -/
theorem commandWord_cases {P : Word → Prop} (hrsv : ∀ (rsv : BitVec 28) (op : BitVec 4), rsv ≠ 0#28 → P (rsv ++ op))
    (hop : ∀ op : BitVec 4, P (0#28 ++ op)) (w : Word) : P w := by
  rw [commandWord_split w]
  by_cases h : w.extractLsb' 4 28 = 0#28
  · rw [h]
    exact hop _
  · exact hrsv _ _ h

/-- The word of the row a word belongs to is that word. -/
theorem commandWord?_commandRow (w : Word) : (commandRow w).commandWord? = some w :=
  commandWord_cases (P := fun w => (commandRow w).commandWord? = some w)
    (fun rsv op h => by rw [commandRow_reserved rsv op h]; rfl) (by decide) w

theorem wellFormed_commandRow (w : Word) : (commandRow w).wellFormed = true :=
  commandWord_cases (P := fun w => (commandRow w).wellFormed = true)
    (fun rsv op h => by rw [commandRow_reserved rsv op h]; simpa [Instr.wellFormed] using h) (by decide) w

/-- The row of a word asks for the command the word decodes to (30_encoding.md R71, R72). -/
theorem acceptedCommand_commandRow (w : Word) : acceptedCommand (commandRow w) = some (decodeCommand w) :=
  commandWord_cases (P := fun w => acceptedCommand (commandRow w) = some (decodeCommand w))
    (fun rsv op h => by
      rw [commandRow_reserved rsv op h, decodeCommand_of_rsv_ne_zero (by rwa [command_rsv])]
      rfl)
    (by decide) w

/-- The access of a command row is the write of its word to CMD, key 0x10. -/
theorem access_of_commandWord? {i : Instr} {w : Word} (h : i.commandWord? = some w) : i.access = (0x10#5, w) := by
  cases i <;> cases h <;> rfl

end CommandWords

section Rows

/-- The write of a slot has that slot's key, its own data word and no command word. -/
theorem writeRow_access (widx : BitVec 4) (data : Word) :
    (writeRow widx data).access = (1#1 ++ widx, data) ∧ (writeRow widx data).commandWord? = none ∧
      (writeRow widx data).wellFormed = true := by
  obtain ⟨n⟩ := widx
  fin_cases n <;> exact ⟨rfl, rfl, rfl⟩

/-- The read of a slot has that slot's key and no command word. -/
theorem readRow_access (widx : BitVec 4) :
    (readRow widx).access.1 = 0#1 ++ widx ∧ (readRow widx).commandWord? = none ∧ (readRow widx).wellFormed = true := by
  revert widx
  decide

/-- A key is WE and a slot (30_encoding.md R75). -/
theorem key_split (key : BitVec 5) :
    key.getLsbD 4 = true ∧ key = 1#1 ++ key.extractLsb' 0 4 ∨ key.getLsbD 4 = false ∧ key = 0#1 ++ key.extractLsb' 0 4 := by
  revert key
  decide

end Rows

open Laws in
/-- The access that carries an instruction decodes to it or to the write of its command word. -/
theorem decodeAccess_access : ∀ i : Instr, AccessDecodes.Statement i
  | .off => AccessDecodes.off
  | .blue => AccessDecodes.blue
  | .green => AccessDecodes.green
  | .cyan => AccessDecodes.cyan
  | .red => AccessDecodes.red
  | .magenta => AccessDecodes.magenta
  | .yellow => AccessDecodes.yellow
  | .white => AccessDecodes.white
  | .set => AccessDecodes.set
  | .blink => AccessDecodes.blink
  | .pulse => AccessDecodes.pulse
  | .illegalOpB => AccessDecodes.illegalOpB
  | .illegalOpCF lo => AccessDecodes.illegalOpCF lo
  | .illegalRsv rsv op => AccessDecodes.illegalRsv rsv op
  | .rdCmd => AccessDecodes.rdCmd
  | .rdStatus => AccessDecodes.rdStatus
  | .rdBright => AccessDecodes.rdBright
  | .rdChR => AccessDecodes.rdChR
  | .rdChG => AccessDecodes.rdChG
  | .rdChB => AccessDecodes.rdChB
  | .rdDelay => AccessDecodes.rdDelay
  | .rdCount => AccessDecodes.rdCount
  | .rdSteps => AccessDecodes.rdSteps
  | .rdIdx => AccessDecodes.rdIdx
  | .rdWaitcnt => AccessDecodes.rdWaitcnt
  | .rdW11 => AccessDecodes.rdW11
  | .rdW12 => AccessDecodes.rdW12
  | .rdW13 => AccessDecodes.rdW13
  | .rdW14 => AccessDecodes.rdW14
  | .rdW15 => AccessDecodes.rdW15
  | .wrCmd data => AccessDecodes.wrCmd data
  | .wrStatus data => AccessDecodes.wrStatus data
  | .wrBright data => AccessDecodes.wrBright data
  | .wrChR data => AccessDecodes.wrChR data
  | .wrChG data => AccessDecodes.wrChG data
  | .wrChB data => AccessDecodes.wrChB data
  | .wrDelay data => AccessDecodes.wrDelay data
  | .wrCount data => AccessDecodes.wrCount data
  | .wrSteps data => AccessDecodes.wrSteps data
  | .wrIdx data => AccessDecodes.wrIdx data
  | .wrWaitcnt data => AccessDecodes.wrWaitcnt data
  | .wrW11 data => AccessDecodes.wrW11 data
  | .wrW12 data => AccessDecodes.wrW12 data
  | .wrW13 data => AccessDecodes.wrW13 data
  | .wrW14 data => AccessDecodes.wrW14 data
  | .wrW15 data => AccessDecodes.wrW15 data

section Encode

variable {i : Instr}

theorem encode_of_commandWord? {w : Word} (h : i.commandWord? = some w) : encode i = wordBytes w := by
  rw [encode, h]

theorem encode_of_access (h : i.commandWord? = none) :
    encode i = i.access.1.setWidth 8 :: wordBytes i.access.2 := by
  rw [encode, h]

/-- A command row is the row of its own word. -/
theorem commandRow_commandWord? {w : Word} (hwf : i.wellFormed = true) (h : i.commandWord? = some w) :
    commandRow w = i := by
  have hwrite : decodeAccess 0x10#5 w = .wrCmd w := decodeAccess_write 0#4 w
  obtain hself | ⟨v, hv, hrow⟩ := decodeAccess_access i hwf
  · rw [access_of_commandWord? h] at hself
    rw [← hwrite.symm.trans hself] at h
    cases h
  · rw [access_of_commandWord? h] at hv
    cases hwrite.symm.trans hv
    exact hrow

/-- An instruction without a command word is what its own access decodes to. -/
theorem decodeAccess_of_no_commandWord (hwf : i.wellFormed = true) (h : i.commandWord? = none) :
    decodeAccess i.access.1 i.access.2 = i := by
  obtain hself | ⟨v, _, hrow⟩ := decodeAccess_access i hwf
  · exact hself
  · rw [← hrow, commandWord?_commandRow] at h
    cases h

end Encode

/-- Settles O1: the bytes hold the command word or the access, which holds the instruction. -/
theorem decodeOfEncode : Obligations.DecodeOfEncode := by
  intro i hwf
  cases h : i.commandWord? with
  | some w => rw [encode_of_commandWord? h, decode_wordBytes, commandRow_commandWord? hwf h]
  | none => rw [encode_of_access h, decode_keyBytes, decodeAccess_of_no_commandWord hwf h]

/-- A key byte in range is the byte of its 5 bits. -/
theorem setWidth_key_byte {k : Byte} (hk : k.toNat < 32) : (k.setWidth 5).setWidth 8 = k := by
  apply BitVec.eq_of_toNat_eq
  rw [BitVec.toNat_setWidth, BitVec.toNat_setWidth]
  omega

/-- What five accepted bytes decode to: the data bytes of a write are kept, those of a read are not (log 7). -/
theorem decodeAccess_encode (key : BitVec 5) (data : Word) :
    (decodeAccess key data).wellFormed = true ∧ (decodeAccess key data).access.1 = key ∧
      (key.getLsbD 4 = true → encode (decodeAccess key data) = key.setWidth 8 :: wordBytes data) ∧
      (encode (decodeAccess key data)).head? = some (key.setWidth 8) := by
  obtain ⟨hwe, hkey⟩ | ⟨hwe, hkey⟩ := key_split key
  · have hrow : decodeAccess key data = writeRow (key.extractLsb' 0 4) data := by
      conv_lhs => rw [hkey]
      exact decodeAccess_write _ _
    obtain ⟨haccess, hword, hwf⟩ := writeRow_access (key.extractLsb' 0 4) data
    rw [hrow, encode_of_access hword, haccess, ← hkey]
    exact ⟨hwf, rfl, fun _ => rfl, rfl⟩
  · have hrow : decodeAccess key data = readRow (key.extractLsb' 0 4) := by
      conv_lhs => rw [hkey]
      exact decodeAccess_read _ _
    obtain ⟨haccess, hword, hwf⟩ := readRow_access (key.extractLsb' 0 4)
    rw [hrow, encode_of_access hword, haccess, ← hkey, hwe]
    exact ⟨hwf, rfl, fun h => absurd h Bool.false_ne_true, rfl⟩

/-- Settles O2: by the two lengths the decoder accepts. -/
theorem encodeOfDecode : Obligations.EncodeOfDecode := by
  intro bs i h
  unfold decode at h
  split at h
  case h_1 b0 b1 b2 b3 =>
    cases h
    have hword := commandWord?_commandRow (bytesWord b0 b1 b2 b3)
    rw [encode_of_commandWord? hword, wordBytes_bytesWord, access_of_commandWord? hword]
    have hwe : (0x10#5).getLsbD 4 = true := by decide
    exact ⟨wellFormed_commandRow _, fun _ => rfl, fun hread => by cases hwe.symm.trans hread⟩
  case h_2 k b0 b1 b2 b3 =>
    split at h
    case isTrue hk =>
      cases h
      obtain ⟨hwf, hkey, hwrite, hhead⟩ := decodeAccess_encode (k.setWidth 5) (bytesWord b0 b1 b2 b3)
      rw [setWidth_key_byte hk] at hwrite hhead
      rw [wordBytes_bytesWord] at hwrite
      rw [hkey, hhead]
      exact ⟨hwf, hwrite, fun _ => ⟨rfl, rfl⟩⟩
    case isFalse => cases h
  case h_3 => cases h

/-- Settles O5: the row asks for the command of the word, and both are dropped while busy. -/
theorem cmdWriteRunsItsRow : Obligations.CmdWriteRunsItsRow := by
  intro w s
  refine ⟨?_, commandWord?_commandRow w, wellFormed_commandRow w⟩
  by_cases hs : s.phase = .idle
  · exact ⟨_, exec_of_acceptedCommand rfl hs, exec_of_acceptedCommand (acceptedCommand_commandRow w) hs⟩
  · exact ⟨_, exec_of_busy rfl hs, exec_of_busy (droppedWhenBusy_commandRow w) hs⟩

/-- Settles O3: below 11 word by word; from 11 on a reserved bit is set or OP is above PULSE's. -/
theorem commandWordsDecode : Obligations.CommandWordsDecode := by
  have hlow : ∀ n : Fin 8, decodeCommand (BitVec.ofNat 32 n) = .fixed (n.val.testBit 2) (n.val.testBit 1) (n.val.testBit 0) := by
    decide
  have hword : ∀ {w : Word} {n : Nat}, w.toNat = n → w = BitVec.ofNat 32 n := by
    rintro w _ rfl
    exact ((BitVec.ofNat_toNat 32 w).trans (BitVec.setWidth_eq w)).symm
  intro w
  refine ⟨fun h => ?fixed, fun h => ?set, fun h => ?blink, fun h => ?pulse, fun h => ?illegal⟩
  case fixed => simpa using hlow ⟨w.toNat, h⟩
  case set => rw [hword h]; rfl
  case blink => rw [hword h]; rfl
  case pulse => rw [hword h]; rfl
  case illegal =>
    by_cases hrsv : w.extractLsb' 4 28 = 0#28
    · apply decodeCommand_of_le_op
      have hzero : w.toNat / 2 ^ 4 % 2 ^ 28 = 0 := by
        simpa [Nat.shiftRight_eq_div_pow] using congrArg BitVec.toNat hrsv
      rw [BitVec.extractLsb'_toNat, Nat.shiftRight_zero]
      omega
    · exact decodeCommand_of_rsv_ne_zero hrsv

/-- Settles O4: the words as written. -/
theorem tableWordsDecode : Obligations.TableWordsDecode := by
  refine ⟨?_, ?_, ?_, ?_, ?_, ?_, ?_, ?_, ?_, ?_⟩ <;> decide

end Sys2Proof
end

