-- ==== Sys2Proof/Proofs/Step.lean ====
section
/-! PROOFS. The step: what it runs (00_scope.md R7), where it stops (10_state.md R35, 41_scale_and_transmit.md R127,
20_memory.md R55), and that no event sees the events still to come (20_memory.md R59). -/

namespace Sys2Proof.Machine

section Step

variable {s : State}

/-- A step runs the event at the head of `inputs`. -/
theorem step_of_cons {e : Event} {rest : List Event} (hn : s.cfg.numPixels = 1) (hi : s.inputs = e :: rest) :
    step s = runEvent e { s with inputs := rest } := by
  rw [step, if_pos hn, runNextEvent, hi]

theorem step_of_nil (hn : s.cfg.numPixels = 1) (hi : s.inputs = []) : step s = .next s := by
  rw [step, if_pos hn, runNextEvent, hi]

/-- The next event is the head of `inputs`. -/
theorem nextEvent_of_cons {e : Event} {rest : List Event} (hi : s.inputs = e :: rest) : nextEvent s = some e :=
  congrArg List.head? hi

end Step

/-- Settles O8: the empty list of events. -/
theorem noEventNoChange : Obligations.NoEventNoChange := fun _ => step_of_nil

/-- Only the pixel count is refused by that name: an instruction answers, and an event is refused for its access alone. -/
theorem runEvent_ne_pixelCount (e : Event) (s : State) : runEvent e s ≠ .refused .pixelCount := by
  intro h
  cases e with
  | access key data =>
    obtain ⟨t, ht⟩ := exec_answers (decodeAccess key data) s
    cases ht.symm.trans h
  | byteAccess we offset size data =>
    simp only [runEvent] at h
    split at h
    next key _ =>
      obtain ⟨t, ht⟩ := exec_answers (decodeAccess key data) s
      cases ht.symm.trans h
    next => cases h
  | tick => cases h
  | txOk => simp only [runEvent] at h; split at h <;> cases h
  | txFail => simp only [runEvent] at h; split at h <;> cases h
  | reset => cases h

/-- Settles O9: the refusal is the step's own, before any event. -/
theorem otherPixelCountsRefused : Obligations.OtherPixelCountsRefused := by
  intro s
  refine ⟨fun h hn => ?_, fun hn => if_neg hn⟩
  cases hi : s.inputs with
  | nil => cases (step_of_nil hn hi).symm.trans h
  | cons e rest => exact runEvent_ne_pixelCount _ _ ((step_of_cons hn hi).symm.trans h)

section Access

/-- An access runs what its bytes decode to; a command word's bytes are those of the write to CMD. -/
theorem exec_access_of_decode {key : BitVec 5} {data : Word} {i : Instr} (s : State)
    (h : decode (key.setWidth 8 :: wordBytes data) = .ok i ∨ (key = 0x10#5 ∧ decode (wordBytes data) = .ok i)) :
    i.wellFormed = true ∧ exec (decodeAccess key data) s = exec i s := by
  obtain h | ⟨rfl, h⟩ := h
  · rw [decode_keyBytes] at h
    cases h
    exact ⟨(decodeAccess_encode key data).1, rfl⟩
  · rw [decode_wordBytes] at h
    cases h
    obtain ⟨⟨t, hword, hrow⟩, _, hwf⟩ := cmdWriteRunsItsRow data s
    refine ⟨hwf, ?_⟩
    rw [hrow, ← hword]
    exact congrArg (exec · s) (decodeAccess_write 0#4 data)

/-- Settles O6: the bytes of the access, or of its command word, hold the instruction it runs. -/
theorem stepRunsDecodedInstruction : Obligations.StepRunsDecodedInstruction := by
  intro s key data rest i hn hi hdecode
  obtain ⟨hwf, hexec⟩ := exec_access_of_decode { s with inputs := rest } hdecode
  exact ⟨hwf, (step_of_cons hn hi).trans hexec⟩

/-- The bytes of a row that decodes are those of the access placed for it. -/
theorem decode_rowAccess {nbits w : Nat} {i : Instr} (h : decodeTableWord nbits w = some i) :
    ∃ key data, rowAccess nbits w = .access key data ∧
      (decode (key.setWidth 8 :: wordBytes data) = .ok i ∨ (key = 0x10#5 ∧ decode (wordBytes data) = .ok i)) := by
  unfold decodeTableWord at h
  split at h
  case isFalse => cases h
  case isTrue hw =>
    split at h
    case h_2 => cases h
    case h_1 j hdecode =>
      cases h
      unfold tableBytes at hdecode
      split_ifs at hdecode with hcommand haccess
      · exact ⟨_, _, if_pos hcommand, .inr ⟨rfl, hdecode⟩⟩
      · refine ⟨_, _, if_neg hcommand, .inl ?_⟩
        have hkey : (BitVec.ofNat 8 w).toNat < 32 := by
          by_contra hwide
          simp only [wordBytes, decode, if_neg hwide] at hdecode
          cases hdecode
        have hbyte : (BitVec.ofNat 5 w).setWidth 8 = BitVec.ofNat 8 w := by
          apply BitVec.eq_of_toNat_eq
          rw [BitVec.toNat_ofNat] at hkey
          rw [BitVec.toNat_setWidth, BitVec.toNat_ofNat, BitVec.toNat_ofNat]
          omega
        rwa [hbyte]
      · cases hdecode

/-- Settles O7: the row's access is the next event, and its bytes hold the row's instruction. -/
theorem fetchedWordRuns : Obligations.FetchedWordRuns := by
  intro s nbits w i hn hrow
  obtain ⟨key, data, haccess, hdecode⟩ := decode_rowAccess hrow
  have hplaced : s.withFetchWord nbits w = { s with inputs := .access key data :: s.inputs } := by
    rw [State.withFetchWord, placeRow, hrow, haccess]
  rw [hplaced]
  exact (step_of_cons (s := { s with inputs := .access key data :: s.inputs }) hn rfl).trans
    (exec_access_of_decode s hdecode).2

end Access

section Bridge

/-- An aligned word access at a byte offset has the key of slot offset / 4 (20_memory.md R51). -/
theorem bridgeKey_word_aligned {offset : BitVec 6} (we : Bool) (h : offset.toNat % 4 = 0) :
    bridgeKey we offset .word = some (BitVec.ofNat 5 (16 * we.toNat + offset.toNat / 4)) := by
  revert we offset
  decide

/-- Any other access has no key (20_memory.md R55). -/
theorem bridgeKey_none {offset : BitVec 6} {size : AccessSize} (we : Bool) (h : size ≠ .word ∨ offset.toNat % 4 ≠ 0) :
    bridgeKey we offset size = none := by
  revert we offset
  cases size <;> decide

end Bridge

/-- Settles O10: by the alignment of the access. -/
theorem byteAddressedAccess : Obligations.ByteAddressedAccess := by
  intro s we offset size data rest hn hi
  rw [step_of_cons hn hi]
  refine ⟨?aligned, fun h => by rw [runEvent, bridgeKey_none we h]⟩
  case aligned =>
    rintro rfl h
    rw [runEvent, bridgeKey_word_aligned we h]

/-- Settles O11: the answer event tests TXP and nothing else. -/
theorem noAnswerWithoutRequest : Obligations.NoAnswerWithoutRequest := by
  rintro s e (rfl | rfl) <;> cases ht : s.txp <;> simp [runEvent, ht]

/-- Settles O12: an instruction, a tick and a Reset answer, so only the two others can stop. -/
theorem onlyTheseEventsStop : Obligations.OnlyTheseEventsStop := by
  intro s hn hstop
  cases hi : s.inputs with
  | nil => exact absurd (step_of_nil hn hi) (hstop s)
  | cons e rest =>
    rw [nextEvent_of_cons hi]
    simp only [step_of_cons hn hi] at hstop
    cases e with
    | access key data =>
      obtain ⟨t, ht⟩ := exec_answers (decodeAccess key data) { s with inputs := rest }
      exact absurd ht (hstop t)
    | byteAccess we offset size data =>
      refine .inr ⟨we, offset, size, data, rfl, ?_⟩
      by_contra h
      push Not at h
      obtain ⟨rfl, haligned⟩ := h
      obtain ⟨t, ht⟩ := exec_answers (decodeAccess (BitVec.ofNat 5 (16 * we.toNat + offset.toNat / 4)) data)
        { s with inputs := rest }
      refine hstop t ?_
      rw [runEvent, bridgeKey_word_aligned we haligned]
      exact ht
    | tick => exact absurd rfl (hstop _)
    | txOk =>
      refine .inl ⟨?_, .inl rfl⟩
      by_contra ht
      exact hstop _ (if_pos (Bool.eq_true_of_not_eq_false ht))
    | txFail =>
      refine .inl ⟨?_, .inr rfl⟩
      by_contra ht
      exact hstop _ (if_pos (Bool.eq_true_of_not_eq_false ht))
    | reset => exact absurd rfl (hstop _)

section Future

/-- The state with other events to come. -/
def withInputs (later : List Event) (s : State) : State := { s with inputs := later }

/-- An outcome with its next state changed by `f`. -/
def mapNext (f : State → State) : Host.Outcome State Fault Refusal → Host.Outcome State Fault Refusal
  | .next s => .next (f s)
  | .fault r => .fault r
  | .refused r => .refused r

variable (later : List Event) (s : State)

theorem ite_withInputs {p : Prop} [Decidable p] {s' t t' : State} (hs : s' = withInputs later s)
    (ht : t' = withInputs later t) : (if p then s' else t') = withInputs later (if p then s else t) := by
  split <;> assumption

theorem unlessBusy_withInputs {f : State → State} (hf : f (withInputs later s) = withInputs later (f s)) :
    unlessBusy f (withInputs later s) = withInputs later (unlessBusy f s) := by
  by_cases h : s.phase = .idle
  · rw [unlessBusy_idle h, unlessBusy_idle (s := withInputs later s) h, hf]
  · rw [unlessBusy_busy h, unlessBusy_busy (s := withInputs later s) h]
    rfl

theorem startCommand_withInputs (c : Command) :
    startCommand c (withInputs later s) = withInputs later (startCommand c s) := by
  cases c with
  | illegal => rfl
  | fixed kr kg kb => rfl
  | set => rfl
  | blink => exact ite_withInputs later _ rfl rfl
  | pulse => exact ite_withInputs later _ rfl rfl

theorem command_withInputs (c : Command) :
    unlessBusy (startCommand c) (withInputs later s) = withInputs later (unlessBusy (startCommand c) s) :=
  unlessBusy_withInputs later s (startCommand_withInputs later s c)

theorem exec_withInputs (i : Instr) : exec i (withInputs later s) = mapNext (withInputs later) (exec i s) := by
  have hcommand : ∀ c, Host.Outcome.next (unlessBusy (startCommand c) (withInputs later s)) =
      mapNext (withInputs later) (.next (unlessBusy (startCommand c) s)) :=
    fun c => congrArg Host.Outcome.next (command_withInputs later s c)
  cases i with
  | off => exact hcommand (.fixed false false false)
  | blue => exact hcommand (.fixed false false true)
  | green => exact hcommand (.fixed false true false)
  | cyan => exact hcommand (.fixed false true true)
  | red => exact hcommand (.fixed true false false)
  | magenta => exact hcommand (.fixed true false true)
  | yellow => exact hcommand (.fixed true true false)
  | white => exact hcommand (.fixed true true true)
  | set => exact hcommand .set
  | blink => exact hcommand .blink
  | pulse => exact hcommand .pulse
  | illegalOpB | illegalOpCF _ | illegalRsv _ _ => exact hcommand .illegal
  | wrCmd w => exact hcommand (decodeCommand w)
  | wrBright w | wrChR w | wrChG w | wrChB w | wrDelay w | wrCount w | wrSteps w =>
    exact congrArg Host.Outcome.next (unlessBusy_withInputs later s rfl)
  | wrStatus _ | wrIdx _ | wrWaitcnt _ | wrW11 _ | wrW12 _ | wrW13 _ | wrW14 _ | wrW15 _ => rfl
  | rdCmd | rdStatus | rdBright | rdChR | rdChG | rdChB | rdDelay | rdCount | rdSteps | rdIdx | rdWaitcnt | rdW11
  | rdW12 | rdW13 | rdW14 | rdW15 => rfl

theorem advance_withInputs : advance (withInputs later s) = withInputs later (advance s) := by
  have hphase : (withInputs later s).phase = s.phase := rfl
  rw [advance, advance, hphase]
  cases s.phase with
  | blinkOn | idle | single | finalOff | resetOff => rfl
  | blinkOff | rampUp | rampDown => exact ite_withInputs later _ rfl rfl

theorem startWait_withInputs : startWait (withInputs later s) = withInputs later (startWait s) :=
  ite_withInputs later _ (advance_withInputs later s) rfl

theorem phaseDone_withInputs : phaseDone (withInputs later s) = withInputs later (phaseDone s) := by
  have hphase : (withInputs later s).phase = s.phase := rfl
  rw [phaseDone, phaseDone, hphase]
  cases s.phase with
  | single | finalOff | resetOff | idle => rfl
  | blinkOn | blinkOff | rampUp | rampDown => exact startWait_withInputs later s

theorem tick_withInputs : tick (withInputs later s) = withInputs later (tick s) :=
  ite_withInputs later _
    (ite_withInputs later _ (advance_withInputs later { s with waitcnt := s.waitcnt - 1#32 }) rfl) rfl

/-- An answer is taken only while one is asked for. -/
theorem answer_withInputs {t t' : State} (h : t' = withInputs later t) :
    (if s.txp then Host.Outcome.next t' else Host.Outcome.fault Fault.noTransmitOutstanding) =
      mapNext (withInputs later) (if s.txp then .next t else .fault .noTransmitOutstanding) := by
  rw [h]
  split <;> rfl

/-- An event does the same to the state whatever events are to come. -/
theorem runEvent_withInputs (e : Event) :
    runEvent e (withInputs later s) = mapNext (withInputs later) (runEvent e s) := by
  cases e with
  | access key data => exact exec_withInputs later s _
  | byteAccess we offset size data =>
    simp only [runEvent]
    split
    next => exact exec_withInputs later s _
    next => rfl
  | tick => exact congrArg Host.Outcome.next (tick_withInputs later s)
  | txOk =>
    exact answer_withInputs later s (phaseDone_withInputs later
      { s with txp := false, led := .known s.slot, txlog := answerLast .ok s.txlog })
  | txFail => exact answer_withInputs later s rfl
  | reset => rfl

/-- Settles O13: an event commutes with a change of the events to come, and so leaves its own as they are. -/
theorem eventsDoNotSeeTheFuture : Obligations.EventsDoNotSeeTheFuture := by
  intro e s later
  have hcomm : ∀ es, runEvent e { s with inputs := es } = mapNext (withInputs es) (runEvent e s) :=
    fun es => runEvent_withInputs es s e
  have hkept : runEvent e s = mapNext (withInputs s.inputs) (runEvent e s) := hcomm s.inputs
  rw [hcomm later]
  cases h : runEvent e s with
  | next t =>
    rw [h] at hkept
    have hsame : t = withInputs s.inputs t := Host.Outcome.next.inj hkept
    have hinputs : t.inputs = (withInputs s.inputs t).inputs := congrArg State.inputs hsame
    exact ⟨hinputs, rfl⟩
  | fault r => rfl
  | refused r => rfl

end Future

end Sys2Proof.Machine
end

