-- ==== Sys2Proof/Proofs/Invariants.lean ====
section
/-! PROOFS. Every event keeps the invariants of Safety.lean (10_state.md R24, R25, R27, R29, R32 to R34, R40), and so they
hold in every reachable state. -/

namespace Sys2Proof.Machine

section Frames

variable {s : State} (h : Inv s)
include h

/-- The invariants do not look at the events to come, the words read and the sticky bits. -/
theorem Inv.unobserved (inputs : List Event) (rdlog : List (BitVec 4 × Word)) (txfail invarg busyerr illcmd : Bool) :
    Inv { s with
      inputs := inputs, rdlog := rdlog, txfail := txfail, invarg := invarg, busyerr := busyerr, illcmd := illcmd } :=
  ⟨{ h.sequencer with }, { h.range with }, { h.transmit with }, { h.latch with }, { h.colour with }⟩

theorem inv_inputs (later : List Event) : Inv { s with inputs := later } :=
  h.unobserved later s.rdlog s.txfail s.invarg s.busyerr s.illcmd

theorem inv_raiseCondition (c : Condition) : Inv (raiseCondition c s) :=
  h.unobserved s.inputs s.rdlog _ _ _ _

theorem inv_clearSticky (w : Word) : Inv (clearSticky w s) :=
  h.unobserved s.inputs s.rdlog _ _ _ _

theorem inv_returnWord (widx : BitVec 4) (w : Word) : Inv (returnWord widx w s) :=
  h.unobserved s.inputs _ s.txfail s.invarg s.busyerr s.illcmd

/-- While idle the live registers are free but for the range of the percent (R27): no latch is compared with them. -/
theorem inv_registers (hidle : s.phase = .idle) {p : BitVec 7} (hp : p.toNat ≤ 100) (r g b d n : Word) (k : BitVec 16) :
    Inv { s with brightP := p, chR := r, chG := g, chB := b, delay := d, count := n, steps := k } where
  sequencer := { h.sequencer with }
  range := { h.range with bright_le := hp }
  transmit := { h.transmit with }
  latch := ⟨by simp [hidle], by simp [hidle]⟩
  colour := { h.colour with }

end Frames

section Log

variable {s : State}

/-- No request is outstanding, and LED is what the answer to the last one made it (10_state.md R40). -/
def Answered (s : State) : Prop :=
  s.txp = false ∧ ∃ log r, s.txlog = log ++ [⟨s.slot, r⟩] ∧
    (r = .ok ∧ s.led = .known s.slot ∨ r = .fail ∧ s.led = .unknown)

/-- TXLOG has a last entry, of SLOT's triple. -/
theorem TransmitInv.last_entry (h : TransmitInv s) :
    ∃ log r, s.txlog = log ++ [⟨s.slot, r⟩] ∧ (r = .pending ↔ s.txp = true) ∧ (r = .ok → s.led = .known s.slot) ∧
      (r = .fail → s.led = .unknown) := by
  obtain ⟨hne, hslot, hpending, hok, hfail, _⟩ := h
  obtain ⟨log, ⟨c, r⟩, hlog⟩ := (List.eq_nil_or_concat' s.txlog).resolve_left hne
  simp only [hlog, List.getLast?_concat, Option.mem_some, forall_eq'] at hslot hpending hok hfail
  exact ⟨log, r, by rw [hlog, hslot], hpending, hok, hfail⟩

theorem TransmitInv.answered (h : TransmitInv s) (ht : s.txp = false) : Answered s := by
  obtain ⟨log, r, hlog, hpending, hok, hfail⟩ := h.last_entry
  refine ⟨ht, log, r, hlog, ?_⟩
  cases r with
  | pending => rw [ht] at hpending; cases hpending.mp rfl
  | ok => exact .inl ⟨rfl, hok rfl⟩
  | fail => exact .inr ⟨rfl, hfail rfl⟩

/-- The outstanding request is the last of TXLOG (10_state.md R29, R34). -/
theorem TransmitInv.pending (h : TransmitInv s) (ht : s.txp = true) :
    ∃ log, s.txlog = log ++ [⟨s.slot, .pending⟩] := by
  obtain ⟨log, r, hlog, hpending, _, _⟩ := h.last_entry
  exact ⟨log, hpending.mpr ht ▸ hlog⟩

/-- In a phase that can be without a request, an answered log meets the invariant. -/
theorem Answered.transmitInv (h : Answered s) (hp : s.phase = .idle ∨ waiting s.phase = true) : TransmitInv s := by
  obtain ⟨ht, log, r, hlog, hr⟩ := h
  have hlast : s.txlog.getLast? = some ⟨s.slot, r⟩ := by rw [hlog, List.getLast?_concat]
  refine ⟨by simp [hlog], by simp [hlast], ?pending, ?ok, ?fail, fun hphase => ?unwaited⟩
  case unwaited => obtain h | h | h := hphase <;> simp [h, waiting] at hp
  all_goals
    simp only [hlast, Option.mem_some, forall_eq']
    obtain ⟨rfl, hled⟩ | ⟨rfl, hled⟩ := hr <;> simp [ht, hled]

end Log

section Phases

variable {s : State}

theorem rangeInv_enter {p : Phase} {k : BitVec 32} (c : Rgb) (h : RangeInv s) (hother : waiting p = false → k = 0#32)
    (hblink : p = .blinkOn ∨ p = .blinkOff → k.toNat < s.ln.toNat)
    (hramp : p = .rampUp ∨ p = .rampDown → k.toNat ≤ s.ls.toNat ∧ 1 ≤ s.ls.toNat) : RangeInv (enter p k c s) where
  bright_le := h.bright_le
  lp_le := h.lp_le
  lpm_pos := h.lpm_pos
  lpm_le := h.lpm_le
  waitcnt_le := Nat.zero_le _
  idx_other := hother
  idx_blink := hblink
  idx_ramp := hramp

/-- Entering a phase brings its own request (43_effect_timer.md R167), so only the index, the latches and the colour are
left to show. -/
theorem inv_enter {p : Phase} {k : BitVec 32} {c : Rgb} (hp : p ≠ .idle) (hrange : RangeInv (enter p k c s))
    (hlatch : LatchInv (enter p k c s)) (hcolour : ColourInv (enter p k c s)) : Inv (enter p k c s) where
  sequencer :=
    { idle_quiet := fun h => absurd h hp
      counting_waits := fun h => absurd rfl h
      pending_busy := fun _ => hp
      wait_counts := fun _ h => by cases h }
  range := hrange
  transmit := by constructor <;> simp
  latch := hlatch
  colour := hcolour

/-- SINGLE has no index, no latches and a colour of its own. -/
theorem inv_enter_single (c : Rgb) (h : RangeInv s) : Inv (enter .single 0#32 c s) :=
  inv_enter (by decide) (rangeInv_enter c h (fun _ => rfl) (by simp) (by simp)) ⟨by simp, by simp⟩
    ⟨by simp, by simp, by simp⟩

theorem inv_finish (hr : RangeInv s) (ha : Answered s) : Inv (finish s) where
  sequencer :=
    { idle_quiet := fun _ => ⟨ha.1, rfl, rfl⟩
      counting_waits := fun h => absurd rfl h
      pending_busy := fun h => by cases ha.1.symm.trans h
      wait_counts := fun h => by cases h }
  range :=
    { hr with
      waitcnt_le := Nat.zero_le _
      idx_other := fun _ => rfl
      idx_blink := by simp
      idx_ramp := by simp }
  transmit := Answered.transmitInv ha (.inl rfl)
  latch := ⟨by simp, by simp⟩
  colour := ⟨by simp, by simp, by simp⟩

end Phases

/-- The ramp ceiling is a percent, and not 0 (45_pulse.md R192). -/
theorem rampCeiling_range {p : BitVec 7} (hp : p.toNat ≤ 100) :
    1 ≤ (rampCeiling p).toNat ∧ (rampCeiling p).toNat ≤ 100 := by
  revert p
  decide

section Commands

variable {s : State} (h : Inv s) (hidle : s.phase = .idle)
include h hidle

theorem inv_latchBlink : Inv (latchBlink s) where
  sequencer := { h.sequencer with }
  range :=
    { h.range with
      lp_le := h.range.bright_le
      waitcnt_le := by simp [(h.sequencer.idle_quiet hidle).2.2]
      idx_blink := by simp [hidle] }
  transmit := { h.transmit with }
  latch := ⟨by simp [hidle], by simp [hidle]⟩
  colour := ⟨by simp [hidle], by simp [hidle], by simp [hidle]⟩

theorem rangeInv_latchPulse : RangeInv (latchPulse s) :=
  { h.range with
    lp_le := h.range.bright_le
    lpm_pos := (rampCeiling_range h.range.bright_le).1
    lpm_le := (rampCeiling_range h.range.bright_le).2
    waitcnt_le := by simp [(h.sequencer.idle_quiet hidle).2.2]
    idx_ramp := by simp [hidle] }

theorem inv_startBlink : Inv (startBlink s) := by
  obtain ⟨_, hs⟩ | ⟨hcount, hs⟩ := startBlink_cases s <;> rw [hs]
  · exact inv_latchBlink h hidle
  · refine inv_enter (by decide) (rangeInv_enter _ (inv_latchBlink h hidle).range (by simp [waiting]) (fun _ => ?pos) (by simp))
      ⟨fun _ => ⟨rfl, rfl, rfl, rfl⟩, by simp⟩ ⟨fun _ => rfl, by simp, by simp⟩
    case pos => exact Nat.pos_of_ne_zero fun hzero => hcount (BitVec.eq_of_toNat_eq hzero)

theorem inv_startPulse : Inv (startPulse s) := by
  obtain ⟨_, hs⟩ | ⟨hsteps, hs⟩ := startPulse_cases s <;> rw [hs]
  · exact inv_raiseCondition h _
  · refine inv_enter (by decide)
      (rangeInv_enter _ (rangeInv_latchPulse h hidle) (by simp [waiting]) (by simp) (fun _ => ⟨Nat.zero_le _, ?pos⟩))
      ⟨by simp, fun _ => ⟨rfl, rfl, rfl, rfl, rfl⟩⟩ ⟨by simp, fun _ => rfl, by simp⟩
    case pos => exact Nat.pos_of_ne_zero fun hzero => hsteps (BitVec.eq_of_toNat_eq hzero)

theorem inv_startCommand (c : Command) : Inv (startCommand c s) := by
  cases c with
  | illegal => exact inv_raiseCondition h _
  | fixed kr kg kb => exact inv_enter_single _ h.range
  | set => exact inv_enter_single _ h.range
  | blink => exact inv_startBlink h hidle
  | pulse => exact inv_startPulse h hidle

end Commands

theorem clampPercent_le (w : Word) : (clampPercent w).toNat ≤ 100 := by
  have := clampPercent_toNat w
  omega

theorem inv_exec {i : Instr} {s t : State} (h : Inv s) (hexec : exec i s = .next t) : Inv t := by
  have hp := h.range.bright_le
  cases exec_cases hexec with
  | read widx => exact inv_returnWord h _ _
  | ignored => exact h
  | cleared w => exact inv_clearSticky h w
  | dropped => exact inv_raiseCondition h _
  | accepted c _ hidle => exact inv_startCommand h hidle c
  | bright w _ hidle => exact inv_registers h hidle (clampPercent_le w) s.chR s.chG s.chB s.delay s.count s.steps
  | chR w _ hidle => exact inv_registers h hidle hp w s.chG s.chB s.delay s.count s.steps
  | chG w _ hidle => exact inv_registers h hidle hp s.chR w s.chB s.delay s.count s.steps
  | chB w _ hidle => exact inv_registers h hidle hp s.chR s.chG w s.delay s.count s.steps
  | delay w _ hidle => exact inv_registers h hidle hp s.chR s.chG s.chB w s.count s.steps
  | count w _ hidle => exact inv_registers h hidle hp s.chR s.chG s.chB s.delay w s.steps
  | steps w _ hidle => exact inv_registers h hidle hp s.chR s.chG s.chB s.delay s.count _

section Timer

variable {s : State}

/-- The end of a wait (43_effect_timer.md R166): the next phase keeps the latches, and its index stays in range. -/
theorem inv_advance (hw : waiting s.phase = true) (hr : RangeInv s) (ha : Answered s) (hl : LatchInv s) :
    Inv (advance s) := by
  obtain ⟨hp, hs⟩ | ⟨hp, hlt, hs⟩ | ⟨hp, _, hs⟩ | ⟨hp, hlt, hs⟩ | ⟨hp, _, hs⟩ | ⟨hp, hpos, hs⟩ | ⟨hp, _, hs⟩ :=
    advance_cases s hw <;> rw [hs]
  · exact inv_enter (by decide) (rangeInv_enter _ hr (by simp [waiting]) (fun _ => hr.idx_blink (.inl hp)) (by simp))
      ⟨fun _ => hl.blink (.inl hp), by simp⟩ ⟨by simp, by simp, fun _ => scaledOff_eq_off s⟩
  · exact inv_enter (by decide) (rangeInv_enter _ hr (by simp [waiting]) (fun _ => by bv_omega) (by simp))
      ⟨fun _ => hl.blink (.inr hp), by simp⟩ ⟨fun _ => rfl, by simp, by simp⟩
  · exact inv_finish hr ha
  · have hls := hr.idx_ramp (.inl hp)
    exact inv_enter (by decide) (rangeInv_enter _ hr (by simp [waiting]) (by simp) (fun _ => ⟨by bv_omega, hls.2⟩))
      ⟨by simp, fun _ => hl.pulse (.inl hp)⟩ ⟨by simp, fun _ => rfl, by simp⟩
  · have hls := hr.idx_ramp (.inl hp)
    exact inv_enter (by decide) (rangeInv_enter _ hr (by simp [waiting]) (by simp) (fun _ => ⟨by bv_omega, hls.2⟩))
      ⟨by simp, fun _ => hl.pulse (.inl hp)⟩ ⟨by simp, fun _ => rfl, by simp⟩
  · have hls := hr.idx_ramp (.inr hp)
    exact inv_enter (by decide) (rangeInv_enter _ hr (by simp [waiting]) (by simp) (fun _ => ⟨by bv_omega, hls.2⟩))
      ⟨by simp, fun _ => hl.pulse (.inr (.inl hp))⟩ ⟨by simp, fun _ => rfl, by simp⟩
  · exact inv_enter (by decide) (rangeInv_enter _ hr (fun _ => rfl) (by simp) (by simp))
      ⟨by simp, fun _ => hl.pulse (.inr (.inl hp))⟩ ⟨by simp, by simp, fun _ => scaledOff_eq_off s⟩

/-- A running wait of `n` ticks: the request of its phase is answered (10_state.md R33). -/
theorem inv_waitcnt {n : BitVec 32} (hw : waiting s.phase = true) (hr : RangeInv s) (ha : Answered s) (hl : LatchInv s)
    (hc : ColourInv s) (hn : n ≠ 0#32) (hle : n.toNat ≤ s.ld.toNat) : Inv { s with waitcnt := n } where
  sequencer :=
    { idle_quiet := fun hidle => absurd hidle (ne_idle_of_waiting hw)
      counting_waits := fun _ => ⟨ha.1, hw⟩
      pending_busy := fun _ => ne_idle_of_waiting hw
      wait_counts := fun _ _ => hn }
  range := { hr with waitcnt_le := hle }
  transmit := { ha.transmitInv (.inr hw) with }
  latch := { hl with }
  colour := { hc with }

theorem inv_phaseDone (hbusy : s.phase ≠ .idle) (hr : RangeInv s) (ha : Answered s) (hl : LatchInv s) (hc : ColourInv s) :
    Inv (phaseDone s) := by
  obtain ⟨_, hs⟩ | ⟨hw, _, hs⟩ | ⟨hw, hld, hs⟩ := phaseDone_cases s hbusy <;> rw [hs]
  · exact inv_finish hr ha
  · exact inv_advance hw hr ha hl
  · exact inv_waitcnt hw hr ha hl hc hld le_rfl

theorem inv_tick (h : Inv s) : Inv (tick s) := by
  obtain hs | ⟨hw, ht, hpos, hleft, hs⟩ | ⟨hw, ht, _, _, hs⟩ := tick_cases s <;> rw [hs]
  · exact h
  · have hle := h.range.waitcnt_le
    exact inv_waitcnt hw h.range (h.transmit.answered ht) h.latch h.colour hleft (by bv_omega)
  · exact inv_advance hw { h.range with waitcnt_le := Nat.zero_le _ } (h.transmit.answered ht) { h.latch with }

/-- The outstanding request after its answer. -/
theorem answered_answerLast {r : TxResult} {led : Led} (h : Inv s) (ht : s.txp = true)
    (hr : r = .ok ∧ led = .known s.slot ∨ r = .fail ∧ led = .unknown) :
    Answered { s with txp := false, led := led, txlog := answerLast r s.txlog } := by
  obtain ⟨log, hlog⟩ := h.transmit.pending ht
  exact ⟨rfl, log, r, by rw [hlog, answerLast_append], hr⟩

theorem inv_txRespOk (h : Inv s) (ht : s.txp = true) : Inv (txRespOk s) :=
  inv_phaseDone (h.sequencer.pending_busy ht) { h.range with } (answered_answerLast h ht (.inl ⟨rfl, rfl⟩))
    { h.latch with } { h.colour with }

theorem inv_txRespFail (h : Inv s) (ht : s.txp = true) : Inv (txRespFail s) := by
  have ha := answered_answerLast h ht (.inr ⟨rfl, rfl⟩)
  exact inv_finish { h.range with } ha

/-- Every element has its reset value (70_reset_and_hazards.md R240), whatever it had before. -/
theorem inv_resetBlock (s : State) : Inv (resetBlock s) := by
  refine inv_enter (by decide) ⟨?_, ?_, ?_, ?_, ?_, ?_, ?_, ?_⟩ ⟨by simp, by simp⟩ ⟨by simp, by simp, fun _ => rfl⟩
  all_goals simp [clampPercent_le]

end Timer

theorem inv_runEvent {e : Event} {s t : State} (h : Inv s) (hrun : runEvent e s = .next t) : Inv t := by
  obtain ⟨i, _, hexec⟩ | ⟨_, rfl⟩ | ⟨_, ht, rfl⟩ | ⟨_, ht, rfl⟩ | ⟨_, rfl⟩ := runEvent_cases hrun
  · exact inv_exec h hexec
  · exact inv_tick h
  · exact inv_txRespOk h ht
  · exact inv_txRespFail h ht
  · exact inv_resetBlock s

/-- Settles O51: the step runs one event, on a state that differs in the events to come. -/
theorem stepKeepsInv : Obligations.StepKeepsInv := by
  intro s t h hstep
  obtain ⟨_, ⟨_, rfl⟩ | ⟨e, rest, _, hrun⟩⟩ := step_cases hstep
  · exact h
  · exact inv_runEvent (inv_inputs h rest) hrun

section Reachable

/-- Power-up is the Reset of a block with nothing in TXLOG. -/
theorem powerUp_eq_resetBlock (cfg : Config) (es : List Event) :
    State.powerUp cfg es = resetBlock { State.powerUp cfg es with txlog := [] } := rfl

/-- Settles O50: power-up is a Reset. -/
theorem resetMeetsInv : Obligations.ResetMeetsInv := by
  have hpowerUp : ∀ cfg es, Inv (State.powerUp cfg es) := fun cfg es => by
    rw [powerUp_eq_resetBlock]
    exact inv_resetBlock _
  exact ⟨hpowerUp _ _, hpowerUp⟩

/-- What every step keeps, every run keeps. -/
theorem run_keeps {P : State → Prop} (hstep : ∀ s t, P s → step s = .next t → P t) :
    ∀ (n : Nat) {s t : State}, P s → Host.Core.run Sys2Proof.core n s = .next t → P t := by
  intro n
  induction n with
  | zero =>
    intro s t hs hrun
    cases hrun
    exact hs
  | succ n ih =>
    intro s t hs hrun
    simp only [Host.Core.run] at hrun
    split at hrun
    next u hu => exact ih (hstep s u hs hu) hrun
    next => cases hrun
    next => cases hrun

theorem inv_of_reachable {cfg : Config} {es : List Event} {n : Nat} {s : State}
    (h : Host.Core.run Sys2Proof.core n (State.powerUp cfg es) = .next s) : Inv s :=
  run_keeps stepKeepsInv n (resetMeetsInv.2 cfg es) h

/-- Settles O52: the sequencer's part of the invariants. -/
theorem reachableStatesMeetR33 : Obligations.ReachableStatesMeetR33 := by
  intro cfg es n s hrun
  obtain ⟨hidle, hcount, hpending, hwait⟩ := (inv_of_reachable hrun).sequencer
  have hpos : 0 < s.waitcnt.toNat ↔ s.waitcnt ≠ 0#32 := by bv_omega
  simp only [hpos, ← waiting_iff]
  exact ⟨hidle, hcount, hpending, hwait⟩

/-- Settles O53: the range of the percent is one of the invariants. -/
theorem reachableBrightInRange : Obligations.ReachableBrightInRange := fun _ _ _ _ hrun =>
  (inv_of_reachable hrun).range.bright_le

end Reachable

end Sys2Proof.Machine
end

