-- ==== Sys2Proof/Proofs/Safety.lean ====
section
/-! PROOFS. What a step can change, and what must have happened when it did: the registers (10_state.md R21, R24, R26, R41),
the sticky bits (R28), SLOT and TXLOG (R34), and the end of an effect (43_effect_timer.md R171). -/

namespace Sys2Proof.Machine

/-- A step with an event runs it, on a state that differs in the events to come; with none it changes nothing. -/
theorem step_event {s t : State} (h : step s = .next t) :
    t = s ∨ ∃ e rest, nextEvent s = some e ∧ nextInstr s = eventInstr e ∧ runEvent e { s with inputs := rest } = .next t := by
  obtain ⟨_, ⟨_, hsame⟩ | ⟨e, rest, hi, hrun⟩⟩ := step_cases h
  · exact .inl hsame
  · have he := nextEvent_of_cons hi
    exact .inr ⟨e, rest, he, by rw [nextInstr, he]; rfl, hrun⟩

section Frames

/-- The parameters and the live registers are kept. -/
structure KeepsRegisters (s t : State) : Prop where
  cfg : t.cfg = s.cfg
  brightP : t.brightP = s.brightP
  chR : t.chR = s.chR
  chG : t.chG = s.chG
  chB : t.chB = s.chB
  delay : t.delay = s.delay
  count : t.count = s.count
  steps : t.steps = s.steps

/-- The sequencer, the pixel slot and the observation records are kept. -/
structure KeepsSequencer (s t : State) : Prop where
  phase : t.phase = s.phase
  txp : t.txp = s.txp
  idx : t.idx = s.idx
  waitcnt : t.waitcnt = s.waitcnt
  slot : t.slot = s.slot
  txlog : t.txlog = s.txlog
  led : t.led = s.led

theorem KeepsRegisters.trans {s t u : State} (h : KeepsRegisters s t) (h' : KeepsRegisters t u) : KeepsRegisters s u :=
  ⟨h'.cfg.trans h.cfg, h'.brightP.trans h.brightP, h'.chR.trans h.chR, h'.chG.trans h.chG, h'.chB.trans h.chB,
    h'.delay.trans h.delay, h'.count.trans h.count, h'.steps.trans h.steps⟩

theorem KeepsSequencer.trans {s t u : State} (h : KeepsSequencer s t) (h' : KeepsSequencer t u) : KeepsSequencer s u :=
  ⟨h'.phase.trans h.phase, h'.txp.trans h.txp, h'.idx.trans h.idx, h'.waitcnt.trans h.waitcnt, h'.slot.trans h.slot,
    h'.txlog.trans h.txlog, h'.led.trans h.led⟩

/-- The effect timer moves the sequencer, SLOT and the records only: all else is as in `s` (43_effect_timer.md). -/
def TimerMove (s t : State) : Prop :=
  ∃ phase txp idx waitcnt slot txlog led,
    t = { s with phase := phase, txp := txp, idx := idx, waitcnt := waitcnt, slot := slot, txlog := txlog, led := led }

variable {s t : State}

theorem TimerMove.trans {u : State} (h : TimerMove s t) (h' : TimerMove t u) : TimerMove s u := by
  obtain ⟨_, _, _, _, _, _, _, rfl⟩ := h
  obtain ⟨phase, txp, idx, waitcnt, slot, txlog, led, rfl⟩ := h'
  exact ⟨phase, txp, idx, waitcnt, slot, txlog, led, rfl⟩

theorem TimerMove.keepsRegisters (h : TimerMove s t) : KeepsRegisters s t := by
  obtain ⟨_, _, _, _, _, _, _, rfl⟩ := h
  constructor <;> rfl

theorem TimerMove.sticky (h : TimerMove s t) (c : Condition) : sticky c t = sticky c s := by
  obtain ⟨_, _, _, _, _, _, _, rfl⟩ := h
  cases c <;> rfl

theorem timerMove_rfl (s : State) : TimerMove s s := ⟨_, _, _, _, _, _, _, rfl⟩

theorem timerMove_enter (p : Phase) (k : BitVec 32) (c : Rgb) (s : State) : TimerMove s (enter p k c s) :=
  ⟨_, _, _, _, _, _, _, rfl⟩

theorem timerMove_finish (s : State) : TimerMove s (finish s) := ⟨_, _, _, _, _, _, _, rfl⟩

theorem timerMove_waitcnt (s : State) (n : BitVec 32) : TimerMove s { s with waitcnt := n } := ⟨_, _, _, _, _, _, _, rfl⟩

theorem timerMove_answer (s : State) (r : TxResult) (led : Led) :
    TimerMove s { s with txp := false, led := led, txlog := answerLast r s.txlog } := ⟨_, _, _, _, _, _, _, rfl⟩

/-- After a wait comes the next phase of the effect, with its request, or the end of a blink. -/
theorem advance_enters_or_finishes (hw : waiting s.phase = true) :
    (∃ p k c, p ≠ .idle ∧ advance s = enter p k c s) ∨
      s.phase = .blinkOff ∧ s.ln.toNat ≤ s.idx.toNat + 1 ∧ advance s = finish s := by
  obtain ⟨_, hs⟩ | ⟨_, _, hs⟩ | ⟨hp, hle, hs⟩ | ⟨_, _, hs⟩ | ⟨_, _, hs⟩ | ⟨_, _, hs⟩ | ⟨_, _, hs⟩ := advance_cases s hw
  case inr.inr.inl => exact .inr ⟨hp, hle, hs⟩
  all_goals exact .inl ⟨_, _, _, by decide, hs⟩

theorem timerMove_advance (hw : waiting s.phase = true) : TimerMove s (advance s) := by
  obtain ⟨p, k, c, _, hs⟩ | ⟨_, _, hs⟩ := advance_enters_or_finishes hw <;> rw [hs]
  · exact timerMove_enter p k c s
  · exact timerMove_finish s

theorem timerMove_phaseDone (hbusy : s.phase ≠ .idle) : TimerMove s (phaseDone s) := by
  obtain ⟨_, hs⟩ | ⟨hw, _, hs⟩ | ⟨_, _, hs⟩ := phaseDone_cases s hbusy <;> rw [hs]
  · exact timerMove_finish s
  · exact timerMove_advance hw
  · exact timerMove_waitcnt s _

theorem timerMove_tick (s : State) : TimerMove s (tick s) := by
  obtain hs | ⟨_, _, _, _, hs⟩ | ⟨hw, _, _, _, hs⟩ := tick_cases s <;> rw [hs]
  · exact timerMove_rfl s
  · exact timerMove_waitcnt s _
  · exact (timerMove_waitcnt s 0#32).trans (timerMove_advance hw)

/-- An answer OK moves the timer; in IDLE it is only recorded (log 11). -/
theorem timerMove_txRespOk (s : State) : TimerMove s (txRespOk s) := by
  have hanswer := timerMove_answer s .ok (.known s.slot)
  by_cases hidle : s.phase = .idle
  · have hkept : txRespOk s = { s with txp := false, led := .known s.slot, txlog := answerLast .ok s.txlog } := by
      simp only [txRespOk, phaseDone, hidle]
    rw [hkept]
    exact hanswer
  · exact hanswer.trans (timerMove_phaseDone hidle)

/-- A command latches and moves the timer; it writes no live register (10_state.md R24). -/
theorem keepsRegisters_startCommand (c : Command) (s : State) : KeepsRegisters s (startCommand c s) := by
  cases c with
  | illegal => constructor <;> rfl
  | fixed kr kg kb => exact (timerMove_enter _ _ _ s).keepsRegisters
  | set => exact (timerMove_enter _ _ _ s).keepsRegisters
  | blink => obtain ⟨_, hs⟩ | ⟨_, hs⟩ := startBlink_cases s <;> rw [startCommand, hs] <;> constructor <;> rfl
  | pulse => obtain ⟨_, hs⟩ | ⟨_, hs⟩ := startPulse_cases s <;> rw [startCommand, hs] <;> constructor <;> rfl

/-- Busy serialisation (20_memory.md R57): while not IDLE no instruction reaches the sequencer. -/
theorem keepsSequencer_exec {i : Instr} (hbusy : s.phase ≠ .idle) (h : exec i s = .next t) : KeepsSequencer s t := by
  cases exec_cases h with
  | read widx => constructor <;> rfl
  | ignored => constructor <;> rfl
  | cleared w => constructor <;> rfl
  | dropped => constructor <;> rfl
  | accepted _ _ hidle => exact absurd hidle hbusy
  | bright _ _ hidle | chR _ _ hidle | chG _ _ hidle | chB _ _ hidle | delay _ _ hidle | count _ _ hidle
  | steps _ _ hidle => exact absurd hidle hbusy

end Frames

section Registers

variable {s t : State}

/-- The writes of the live registers, each with what it stores. -/
inductive StoresRegister (s : State) : Instr → State → Prop where
  | bright (w : Word) : StoresRegister s (.wrBright w) { s with brightP := clampPercent w }
  | chR (w : Word) : StoresRegister s (.wrChR w) { s with chR := w }
  | chG (w : Word) : StoresRegister s (.wrChG w) { s with chG := w }
  | chB (w : Word) : StoresRegister s (.wrChB w) { s with chB := w }
  | delay (w : Word) : StoresRegister s (.wrDelay w) { s with delay := w }
  | count (w : Word) : StoresRegister s (.wrCount w) { s with count := w }
  | steps (w : Word) : StoresRegister s (.wrSteps w) { s with steps := w.extractLsb' 0 16 }

/-- What an instruction does to the live registers: nothing, or the write of one of them while idle. -/
theorem exec_registers {i : Instr} (h : exec i s = .next t) :
    KeepsRegisters s t ∨ s.phase = .idle ∧ StoresRegister s i t := by
  cases exec_cases h with
  | read | ignored | cleared | dropped => exact .inl (by constructor <;> rfl)
  | accepted c => exact .inl (keepsRegisters_startCommand c s)
  | bright w hi hidle => exact .inr ⟨hidle, hi ▸ .bright w⟩
  | chR w hi hidle => exact .inr ⟨hidle, hi ▸ .chR w⟩
  | chG w hi hidle => exact .inr ⟨hidle, hi ▸ .chG w⟩
  | chB w hi hidle => exact .inr ⟨hidle, hi ▸ .chB w⟩
  | delay w hi hidle => exact .inr ⟨hidle, hi ▸ .delay w⟩
  | count w hi hidle => exact .inr ⟨hidle, hi ▸ .count w⟩
  | steps w hi hidle => exact .inr ⟨hidle, hi ▸ .steps w⟩

/-- What a step does to the live registers: nothing, the reset values, or the write of one of them while idle. -/
theorem step_registers (h : step s = .next t) :
    KeepsRegisters s t ∨ nextEvent s = some .reset ∧ t.cfg = s.cfg ∨
      s.phase = .idle ∧ ∃ i rest, nextInstr s = some i ∧ StoresRegister { s with inputs := rest } i t := by
  obtain rfl | ⟨e, rest, he, hinstr, hrun⟩ := step_event h
  · exact .inl (timerMove_rfl t).keepsRegisters
  have hinputs : KeepsRegisters s { s with inputs := rest } := by constructor <;> rfl
  obtain ⟨i, hi, hexec⟩ | ⟨rfl, rfl⟩ | ⟨rfl, _, rfl⟩ | ⟨rfl, _, rfl⟩ | ⟨rfl, rfl⟩ := runEvent_cases hrun
  · obtain hkeep | ⟨hidle, hstore⟩ := exec_registers hexec
    · exact .inl (hinputs.trans hkeep)
    · exact .inr (.inr ⟨hidle, i, rest, hinstr.trans hi, hstore⟩)
  · exact .inl (hinputs.trans (timerMove_tick _).keepsRegisters)
  · exact .inl (hinputs.trans (timerMove_txRespOk _).keepsRegisters)
  · exact .inl (by constructor <;> rfl)
  · exact .inr (.inl ⟨he, rfl⟩)

/-- Settles O56: of the writes, the one of BRIGHT. -/
theorem onlyHostAndResetWriteBright : Obligations.OnlyHostAndResetWriteBright := by
  intro s t h hne
  obtain hkeep | ⟨he, _⟩ | ⟨hidle, i, rest, hi, hstore⟩ := step_registers h
  · exact absurd hkeep.brightP hne
  · exact .inl he
  · cases hstore with
    | bright w => exact .inr ⟨w, hi, hidle⟩
    | chR | chG | chB | delay | count | steps => exact absurd rfl hne

/-- Settles O57: each register's own write changes it, and the other writes keep it. -/
theorem onlyHostAndResetWriteArguments : Obligations.OnlyHostAndResetWriteArguments := by
  intro s t h hreset
  obtain ⟨_, _, hr, hg, hb, hd, hn, hk⟩ | ⟨he, _⟩ | ⟨hidle, i, rest, hi, hstore⟩ := step_registers h
  · exact ⟨absurd hr, absurd hg, absurd hb, absurd hd, absurd hn, absurd hk⟩
  · exact absurd he hreset
  · cases hstore with
    | bright w => exact ⟨absurd rfl, absurd rfl, absurd rfl, absurd rfl, absurd rfl, absurd rfl⟩
    | chR w => exact ⟨fun _ => ⟨hidle, hi⟩, absurd rfl, absurd rfl, absurd rfl, absurd rfl, absurd rfl⟩
    | chG w => exact ⟨absurd rfl, fun _ => ⟨hidle, hi⟩, absurd rfl, absurd rfl, absurd rfl, absurd rfl⟩
    | chB w => exact ⟨absurd rfl, absurd rfl, fun _ => ⟨hidle, hi⟩, absurd rfl, absurd rfl, absurd rfl⟩
    | delay w => exact ⟨absurd rfl, absurd rfl, absurd rfl, fun _ => ⟨hidle, hi⟩, absurd rfl, absurd rfl⟩
    | count w => exact ⟨absurd rfl, absurd rfl, absurd rfl, absurd rfl, fun _ => ⟨hidle, hi⟩, absurd rfl⟩
    | steps w =>
      exact ⟨absurd rfl, absurd rfl, absurd rfl, absurd rfl, absurd rfl,
        fun _ => ⟨hidle, w, hi, by rw [BitVec.extractLsb'_toNat, Nat.shiftRight_zero]⟩⟩

theorem step_keeps_cfg (h : step s = .next t) : t.cfg = s.cfg := by
  obtain hkeep | ⟨_, hcfg⟩ | ⟨_, i, rest, _, hstore⟩ := step_registers h
  · exact hkeep.cfg
  · exact hcfg
  · cases hstore <;> rfl

/-- Settles O58: no step changes it, so no run does. -/
theorem configurationIsConstant : Obligations.ConfigurationIsConstant := fun s _ n =>
  run_keeps (P := fun u => u.cfg = s.cfg) (fun _ _ hu hstep => (step_keeps_cfg hstep).trans hu) n rfl

end Registers

section Sticky

/-- A host access asks for a command only as a write to CMD (30_encoding.md R75). -/
theorem eventInstr_command {e : Event} {i : Instr} {c : Command} (he : eventInstr e = some i)
    (hc : acceptedCommand i = some c) : ∃ w, i = .wrCmd w ∧ decodeCommand w = c := by
  have haccess : ∀ key data, acceptedCommand (decodeAccess key data) = some c →
      ∃ w, decodeAccess key data = .wrCmd w ∧ decodeCommand w = c := by
    intro key data hc
    obtain ⟨_, hkey⟩ | ⟨_, hkey⟩ := key_split key <;> rw [hkey] at hc ⊢
    · rw [decodeAccess_write] at hc ⊢
      unfold writeRow at hc ⊢
      split at hc <;> cases hc
      exact ⟨data, rfl, rfl⟩
    · rw [decodeAccess_read, acceptedCommand_readRow] at hc
      cases hc
  cases e with
  | access key data =>
    cases he
    exact haccess key data hc
  | byteAccess we offset size data =>
    obtain ⟨key, _, rfl⟩ := Option.map_eq_some_iff.mp he
    exact haccess key data hc
  | tick | txOk | txFail | reset => cases he

/-- The value of a word by its command (30_encoding.md R71). -/
theorem toNat_of_decodeCommand (w : Word) :
    (decodeCommand w = .pulse → w = 0xA#32) ∧ (decodeCommand w = .illegal → 11 ≤ w.toNat) := by
  obtain ⟨hfixed, hset, hblink, hpulse, hillegal⟩ := commandWordsDecode w
  obtain h | h | h | h | h : w.toNat < 8 ∨ w.toNat = 8 ∨ w.toNat = 9 ∨ w.toNat = 10 ∨ 11 ≤ w.toNat := by omega
  · simp [hfixed h]
  · simp [hset h]
  · simp [hblink h]
  · exact ⟨fun _ => BitVec.eq_of_toNat_eq h, by simp [hpulse h]⟩
  · exact ⟨by simp [hillegal h], fun _ => h⟩

/-- What raises each condition (60_exceptions.md R210 to R213), of an event or the instruction it carries. -/
def RaisedBy (s : State) (e : Event) : Condition → Prop
  | .transmitFailure => e = .txFail
  | .invalidArgument => eventInstr e = some (.wrCmd 0xA#32) ∧ s.phase = .idle ∧ s.steps = 0#16
  | .busy => s.phase ≠ .idle ∧ ∃ i, eventInstr e = some i ∧ droppedWhenBusy i = true
  | .illegalCommand => s.phase = .idle ∧ ∃ w, eventInstr e = some (.wrCmd w) ∧ 11 ≤ w.toNat

/-- A command raises nothing, IllegalCommand or, as a PULSE of no steps, InvalidArgument. -/
theorem sticky_startCommand {c : Command} {s : State} (d : Condition) :
    sticky d (startCommand c s) = sticky d s ∨
      ∃ r, sticky d (startCommand c s) = (sticky d s || r == d) ∧
        (r = .illegalCommand ∧ c = .illegal ∨ r = .invalidArgument ∧ c = .pulse ∧ s.steps = 0#16) := by
  have hlatchBlink : sticky d (latchBlink s) = sticky d s := by cases d <;> rfl
  have hlatchPulse : sticky d (latchPulse s) = sticky d s := by cases d <;> rfl
  cases c with
  | illegal => exact .inr ⟨_, sticky_raiseCondition _ d s, .inl ⟨rfl, rfl⟩⟩
  | fixed kr kg kb => exact .inl ((timerMove_enter _ _ _ s).sticky d)
  | set => exact .inl ((timerMove_enter _ _ _ s).sticky d)
  | blink =>
    obtain ⟨_, hs⟩ | ⟨_, hs⟩ := startBlink_cases s <;> rw [startCommand, hs]
    · exact .inl hlatchBlink
    · exact .inl (((timerMove_enter _ _ _ _).sticky d).trans hlatchBlink)
  | pulse =>
    obtain ⟨hsteps, hs⟩ | ⟨_, hs⟩ := startPulse_cases s <;> rw [startCommand, hs]
    · exact .inr ⟨_, sticky_raiseCondition _ d s, .inr ⟨rfl, rfl, hsteps⟩⟩
    · exact .inl (((timerMove_enter _ _ _ _).sticky d).trans hlatchPulse)

theorem sticky_clearSticky (w : Word) (s : State) (d : Condition) :
    sticky d (clearSticky w s) = (sticky d s && !w.getLsbD (conditionCode d)) := by
  cases d <;> rfl

/-- What an event does to a sticky bit: nothing, the reset value, the host's clearing, or one condition raised. -/
theorem runEvent_sticky {e : Event} {s t : State} (h : runEvent e s = .next t) (d : Condition) :
    sticky d t = sticky d s ∨ e = .reset ∧ sticky d t = false ∨
      (∃ w, eventInstr e = some (.wrStatus w) ∧ sticky d t = (sticky d s && !w.getLsbD (conditionCode d))) ∨
      ∃ r, sticky d t = (sticky d s || r == d) ∧ RaisedBy s e r := by
  obtain ⟨i, hi, hexec⟩ | ⟨_, rfl⟩ | ⟨_, _, rfl⟩ | ⟨rfl, _, rfl⟩ | ⟨rfl, rfl⟩ := runEvent_cases h
  · cases exec_cases hexec with
    | read widx => exact .inl (by cases d <;> rfl)
    | ignored => exact .inl rfl
    | cleared w hw => exact .inr (.inr (.inl ⟨w, hw ▸ hi, sticky_clearSticky w s d⟩))
    | dropped hd hbusy => exact .inr (.inr (.inr ⟨.busy, sticky_raiseCondition _ d s, hbusy, i, hi, hd⟩))
    | accepted c hc hidle =>
      obtain ⟨w, rfl, hw⟩ := eventInstr_command hi hc
      obtain ⟨hpulse, hillegal⟩ := toNat_of_decodeCommand w
      obtain hkeep | ⟨r, hr, ⟨rfl, rfl⟩ | ⟨rfl, rfl, hsteps⟩⟩ := sticky_startCommand (c := c) (s := s) d
      · exact .inl hkeep
      · exact .inr (.inr (.inr ⟨_, hr, hidle, w, hi, hillegal hw⟩))
      · exact .inr (.inr (.inr ⟨_, hr, hpulse hw ▸ hi, hidle, hsteps⟩))
    | bright | chR | chG | chB | delay | count | steps => exact .inl (by cases d <;> rfl)
  · exact .inl ((timerMove_tick s).sticky d)
  · exact .inl ((timerMove_txRespOk s).sticky d)
  · refine .inr (.inr (.inr ⟨.transmitFailure, ?_, rfl⟩))
    exact ((timerMove_finish _).sticky d).trans (by rw [sticky_raiseCondition]; cases d <;> rfl)
  · exact .inr (.inl ⟨rfl, by cases d <;> rfl⟩)

/-- A sticky bit is set by its own condition. -/
theorem step_sets_sticky {s t : State} {d : Condition} (h : step s = .next t) (hs : sticky d s = false)
    (ht : sticky d t = true) : ∃ e, nextEvent s = some e ∧ nextInstr s = eventInstr e ∧ RaisedBy s e d := by
  obtain rfl | ⟨e, rest, he, hinstr, hrun⟩ := step_event h
  · cases hs.symm.trans ht
  · have hsame : sticky d { s with inputs := rest } = false := by cases d <;> exact hs
    obtain hkeep | ⟨_, hreset⟩ | ⟨w, _, hclear⟩ | ⟨r, hraise, hcause⟩ := runEvent_sticky hrun d
    · cases (hkeep.trans hsame).symm.trans ht
    · cases hreset.symm.trans ht
    · rw [hsame] at hclear; cases hclear.symm.trans ht
    · rw [hsame, ht] at hraise
      obtain rfl : r = d := eq_of_beq hraise.symm
      exact ⟨e, he, hinstr, by cases r <;> exact hcause⟩

/-- Settles O54: one condition for each bit. -/
theorem stickyBitsSetByTheirCondition : Obligations.StickyBitsSetByTheirCondition := by
  intro s t h
  refine ⟨fun hs ht => ?txfail, fun hs ht => ?invarg, fun hs ht => ?busyerr, fun hs ht => ?illcmd⟩
  case txfail =>
    obtain ⟨e, he, _, rfl⟩ := step_sets_sticky (d := .transmitFailure) h hs ht
    exact he
  case invarg =>
    obtain ⟨e, _, hi, hcause⟩ := step_sets_sticky (d := .invalidArgument) h hs ht
    rw [hi]
    exact hcause
  case busyerr =>
    obtain ⟨e, _, hi, hcause⟩ := step_sets_sticky (d := .busy) h hs ht
    rw [hi]
    exact hcause
  case illcmd =>
    obtain ⟨e, _, hi, hcause⟩ := step_sets_sticky (d := .illegalCommand) h hs ht
    rw [hi]
    exact hcause

/-- Settles O55: a condition raised sets no bit to 0, so the reset value and the host's clearing are left. -/
theorem stickyBitsClearedByHostOrReset : Obligations.StickyBitsClearedByHostOrReset := by
  intro s t d h hs ht
  obtain rfl | ⟨e, rest, he, hinstr, hrun⟩ := step_event h
  · cases hs.symm.trans ht
  · have hsame : sticky d { s with inputs := rest } = true := by cases d <;> exact hs
    obtain hkeep | ⟨rfl, _⟩ | ⟨w, hw, hclear⟩ | ⟨r, hraise, _⟩ := runEvent_sticky hrun d
    · cases (hkeep.trans hsame).symm.trans ht
    · exact .inl he
    · rw [hsame, ht, Bool.true_and, eq_comm, Bool.not_eq_false'] at hclear
      exact .inr ⟨w, hinstr.trans hw, hclear⟩
    · rw [hsame, Bool.true_or] at hraise
      cases hraise.symm.trans ht

end Sticky

section Transmit

/-- No request is issued: SLOT and the triples of TXLOG are as before. -/
def Quiet (s t : State) : Prop := t.slot = s.slot ∧ t.txlog.map (·.rgb) = s.txlog.map (·.rgb)

/-- One request is issued: its triple is in SLOT and at the end of TXLOG, and it is outstanding (10_state.md R34). -/
def Issues (s t : State) : Prop :=
  t.txp = true ∧ t.txlog.map (·.rgb) = s.txlog.map (·.rgb) ++ [t.slot] ∧ t.txlog.getLast? = some ⟨t.slot, .pending⟩

variable {s t : State}

theorem issues_enter (p : Phase) (k : BitVec 32) (c : Rgb) (s : State) : Issues s (enter p k c s) :=
  ⟨rfl, by simp, by simp⟩

theorem quiet_or_issues_advance (hw : waiting s.phase = true) : Quiet s (advance s) ∨ Issues s (advance s) := by
  obtain ⟨p, k, c, _, hs⟩ | ⟨_, _, hs⟩ := advance_enters_or_finishes hw <;> rw [hs]
  · exact .inr (issues_enter p k c s)
  · exact .inl ⟨rfl, rfl⟩

theorem quiet_or_issues_tick (s : State) : Quiet s (tick s) ∨ s.txp = false ∧ Issues s (tick s) := by
  obtain hs | ⟨_, _, _, _, hs⟩ | ⟨hw, ht, _, _, hs⟩ := tick_cases s <;> rw [hs]
  · exact .inl ⟨rfl, rfl⟩
  · exact .inl ⟨rfl, rfl⟩
  · exact (quiet_or_issues_advance (s := { s with waitcnt := 0#32 }) hw).imp id fun h => ⟨ht, h⟩

theorem quiet_or_issues_phaseDone (s : State) : Quiet s (phaseDone s) ∨ Issues s (phaseDone s) := by
  by_cases hidle : s.phase = .idle
  · exact .inl (by simp only [phaseDone, hidle]; exact ⟨rfl, rfl⟩)
  · obtain ⟨_, hs⟩ | ⟨hw, _, hs⟩ | ⟨_, _, hs⟩ := phaseDone_cases s hidle <;> rw [hs]
    · exact .inl ⟨rfl, rfl⟩
    · exact quiet_or_issues_advance hw
    · exact .inl ⟨rfl, rfl⟩

/-- The answer of a request changes no triple; its phase's end may issue the next request. -/
theorem quiet_or_issues_txRespOk (s : State) : Quiet s (txRespOk s) ∨ Issues s (txRespOk s) := by
  have hrgb := answerLast_map_rgb .ok s.txlog
  obtain ⟨hslot, hlog⟩ | ⟨ht, hlog, hlast⟩ :=
    quiet_or_issues_phaseDone { s with txp := false, led := .known s.slot, txlog := answerLast .ok s.txlog }
  · exact .inl ⟨hslot, hlog.trans hrgb⟩
  · exact .inr ⟨ht, hlog.trans (congrArg (· ++ _) hrgb), hlast⟩

theorem quiet_or_issues_startCommand (c : Command) (s : State) :
    Quiet s (startCommand c s) ∨ Issues s (startCommand c s) := by
  cases c with
  | illegal => exact .inl ⟨rfl, rfl⟩
  | fixed kr kg kb => exact .inr (issues_enter _ _ _ s)
  | set => exact .inr (issues_enter _ _ _ s)
  | blink =>
    obtain ⟨_, hs⟩ | ⟨_, hs⟩ := startBlink_cases s <;> rw [startCommand, hs]
    · exact .inl ⟨rfl, rfl⟩
    · exact .inr (issues_enter _ _ _ (latchBlink s))
  | pulse =>
    obtain ⟨_, hs⟩ | ⟨_, hs⟩ := startPulse_cases s <;> rw [startCommand, hs]
    · exact .inl ⟨rfl, rfl⟩
    · exact .inr (issues_enter _ _ _ (latchPulse s))

/-- A request is issued by a command taken while idle, at the end of an answered wait, by an answer, or by a Reset. -/
theorem runEvent_slot {e : Event} (h : runEvent e s = .next t) :
    Quiet s t ∨ Issues s t ∧ (s.phase = .idle ∨ s.txp = false ∨ e = .txOk ∨ e = .reset) := by
  obtain ⟨i, _, hexec⟩ | ⟨_, rfl⟩ | ⟨rfl, _, rfl⟩ | ⟨_, _, rfl⟩ | ⟨rfl, rfl⟩ := runEvent_cases h
  · cases exec_cases hexec with
    | accepted c _ hidle => exact (quiet_or_issues_startCommand c s).imp id fun h => ⟨h, .inl hidle⟩
    | read | ignored | cleared | dropped | bright | chR | chG | chB | delay | count | steps => exact .inl ⟨rfl, rfl⟩
  · exact (quiet_or_issues_tick s).imp id fun ⟨ht, h⟩ => ⟨h, .inr (.inl ht)⟩
  · exact (quiet_or_issues_txRespOk s).imp id fun h => ⟨h, .inr (.inr (.inl rfl))⟩
  · exact .inl ⟨rfl, answerLast_map_rgb .fail s.txlog⟩
  · exact .inr ⟨⟨rfl, by simp, by simp⟩, .inr (.inr (.inr rfl))⟩

/-- Settles O59: while idle no request is outstanding (R33). -/
theorem slotChangesOnlyByTransmit : Obligations.SlotChangesOnlyByTransmit := by
  intro s t h
  obtain rfl | ⟨e, rest, he, _, hrun⟩ := step_event h
  · exact .inl ⟨rfl, rfl⟩
  · obtain hquiet | ⟨⟨ht, hlog, hlast⟩, hwhen⟩ := runEvent_slot hrun
    · exact .inl hquiet
    · refine .inr ⟨ht, hlog, hlast, fun hinv => ?_⟩
      obtain hidle | htxp | rfl | rfl := hwhen
      · exact .inl (hinv.sequencer.idle_quiet hidle).1
      · exact .inl htxp
      · exact .inr (.inl he)
      · exact .inr (.inr he)

end Transmit

section EndOfEffect

variable {s t : State}

theorem advance_idle (hw : waiting s.phase = true) (h : (advance s).phase = .idle) :
    s.phase = .blinkOff ∧ s.ln.toNat ≤ s.idx.toNat + 1 := by
  obtain ⟨p, k, c, hp, hs⟩ | ⟨hp, hle, _⟩ := advance_enters_or_finishes hw
  · rw [hs] at h
    exact absurd h hp
  · exact ⟨hp, hle⟩

theorem tick_idle (hbusy : s.phase ≠ .idle) (h : (tick s).phase = .idle) :
    s.phase = .blinkOff ∧ s.ln.toNat ≤ s.idx.toNat + 1 ∧ s.waitcnt = 1#32 := by
  obtain hs | ⟨_, _, _, _, hs⟩ | ⟨hw, _, _, hlast, hs⟩ := tick_cases s <;> rw [hs] at h
  · exact absurd h hbusy
  · exact absurd h hbusy
  · obtain ⟨hp, hle⟩ := advance_idle (s := { s with waitcnt := 0#32 }) hw h
    exact ⟨hp, hle, by bv_omega⟩

theorem phaseDone_idle (hbusy : s.phase ≠ .idle) (h : (phaseDone s).phase = .idle) :
    (s.phase = .single ∨ s.phase = .finalOff ∨ s.phase = .resetOff) ∨
      s.phase = .blinkOff ∧ s.ln.toNat ≤ s.idx.toNat + 1 ∧ s.ld = 0#32 := by
  obtain ⟨hw, _⟩ | ⟨hw, hld, hs⟩ | ⟨_, _, hs⟩ := phaseDone_cases s hbusy
  · exact .inl (((waiting_eq_false_iff _).mp hw).resolve_left hbusy)
  · rw [hs] at h
    obtain ⟨hp, hle⟩ := advance_idle hw h
    exact .inr ⟨hp, hle, hld⟩
  · rw [hs] at h
    exact absurd h hbusy

/-- Settles O60: no instruction reaches the sequencer of a busy block, so the tick and the answers are left. -/
theorem nothingCancelsAnEffect : Obligations.NothingCancelsAnEffect := by
  intro s t h hbusy hidle
  obtain rfl | ⟨e, rest, he, _, hrun⟩ := step_event h
  · exact absurd hidle hbusy
  obtain ⟨i, _, hexec⟩ | ⟨rfl, rfl⟩ | ⟨rfl, _, rfl⟩ | ⟨rfl, _, rfl⟩ | ⟨rfl, rfl⟩ := runEvent_cases hrun
  · exact absurd ((keepsSequencer_exec (s := { s with inputs := rest }) hbusy hexec).phase.symm.trans hidle) hbusy
  · obtain ⟨hp, hle, hlast⟩ := tick_idle (s := { s with inputs := rest }) hbusy hidle
    exact .inr (.inr ⟨hp, hle, .inr ⟨he, hlast⟩⟩)
  · obtain hp | ⟨hp, hle, hld⟩ := phaseDone_idle (s := { s with
      inputs := rest, txp := false, led := .known s.slot, txlog := answerLast .ok s.txlog }) hbusy hidle
    · exact .inr (.inl ⟨he, hp⟩)
    · exact .inr (.inr ⟨hp, hle, .inl ⟨he, hld⟩⟩)
  · exact .inl he
  · cases hidle

end EndOfEffect

end Sys2Proof.Machine
end

