-- ==== Sys2Proof/Proofs/Commands.lean ====
section
/-! PROOFS. The reads and the writes of a slot (20_memory.md R52 to R57; 40_brightness_and_registers.md), the commands from
idle (40_brightness_and_registers.md R99; 60_exceptions.md R216), the pseudo-instructions (30_encoding.md R80) and the reset
state (70_reset_and_hazards.md R240, R241). -/

namespace Sys2Proof.Machine

section Reads

/-- A read returns its slot's word (20_memory.md R52). -/
theorem exec_readRow (widx : BitVec 4) (s : State) :
    exec (readRow widx) s = .next (returnWord widx (slotWord widx s) s) := by
  obtain ⟨n⟩ := widx
  fin_cases n <;> rfl

theorem runEvent_read (widx : BitVec 4) (data : Word) (s : State) :
    runEvent (.access (0#1 ++ widx) data) s = .next (returnWord widx (slotWord widx s) s) :=
  (congrArg (exec · s) (decodeAccess_read widx data)).trans (exec_readRow widx s)

/-- No slot shows the words read (20_memory.md R56). -/
theorem slotWord_returnWord (j widx : BitVec 4) (w : Word) (s : State) :
    slotWord j (returnWord widx w s) = slotWord j s := by
  unfold slotWord
  split <;> rfl

/-- Settles O14: the sixteen words, a narrow register's zero-extended. -/
theorem readsReturnTheirWord : Obligations.ReadsReturnTheirWord := by
  intro s
  rw [BitVec.ofNat_toNat, BitVec.ofNat_toNat]
  exact ⟨rfl, rfl, rfl, rfl, rfl, rfl, rfl, rfl, rfl, rfl, rfl, rfl, rfl, rfl, rfl, rfl⟩

/-- Settles O16: the second read finds the slot as the first did. -/
theorem readsHaveNoSideEffect : Obligations.ReadsHaveNoSideEffect := by
  intro widx data data' s
  refine ⟨_, runEvent_read widx data s, rfl, ?_⟩
  rw [runEvent_read, slotWord_returnWord]
  simp [returnWord]

/-- Settles O17: a lane is a quotient modulo 256, and the triple is a sum of its lanes. -/
theorem byteOrder : Obligations.ByteOrder := by
  refine ⟨fun widx k s _ => ?lane, fun s => ?triple⟩
  case lane => rw [slotByte, BitVec.extractLsb'_toNat, Nat.shiftRight_eq_div_pow]
  case triple =>
    have hg := s.slot.g.isLt
    have hb := s.slot.b.isLt
    rw [txRgb, packRgb, BitVec.toNat_append, BitVec.toNat_append, ← Nat.shiftLeft_add_eq_or_of_lt hb,
      ← Nat.shiftLeft_add_eq_or_of_lt hg, Nat.shiftLeft_eq, Nat.shiftLeft_eq]
    omega

end Reads

section Writes

/-- `WR <slot>, <value>` runs the slot's write (30_encoding.md R79). -/
theorem runEvent_busWrite (widx : BitVec 4) (w : Word) (s : State) :
    runEvent (busWrite widx w) s = exec (writeRow widx w) s :=
  congrArg (exec · s) (decodeAccess_write widx w)

/-- What a write of a slot from BRIGHT on stores while idle; `exec_writeRow_of_idle` ties it to the model. -/
def storeSlot (widx : BitVec 4) (w : Word) (s : State) : State :=
  match widx.toNat with
  | 2 => { s with brightP := clampPercent w }
  | 3 => { s with chR := w }
  | 4 => { s with chG := w }
  | 5 => { s with chB := w }
  | 6 => { s with delay := w }
  | 7 => { s with count := w }
  | 8 => { s with steps := w.extractLsb' 0 16 }
  | _ => s

/-- The word such a slot reads as after the write; `slotWord_storeSlot` ties it to the model. -/
def storedWord (widx : BitVec 4) (w : Word) (s : State) : Word :=
  match widx.toNat with
  | 2 => (clampPercent w).setWidth 32
  | 3 | 4 | 5 | 6 | 7 => w
  | 8 => (w.extractLsb' 0 16).setWidth 32
  | _ => slotWord widx s

variable {widx : BitVec 4} (w : Word) {s : State}

theorem exec_writeRow_of_idle (h : s.phase = .idle) (hw : 2 ≤ widx.toNat) :
    exec (writeRow widx w) s = .next (storeSlot widx w s) := by
  have hstore : ∀ f : State → State, Host.Outcome.next (unlessBusy f s) = (.next (f s) : Host.Outcome State Fault Refusal) :=
    fun f => congrArg Host.Outcome.next (unlessBusy_idle h)
  obtain ⟨n⟩ := widx
  fin_cases n
  -- CMD and STATUS, then BRIGHT to STEPS, then the slots that ignore a write
  iterate 2 exact absurd hw (by decide)
  iterate 7 exact hstore _
  all_goals rfl

/-- A write reaches its own slot only. -/
theorem slotWord_storeSlot (j widx : BitVec 4) (s : State) :
    slotWord j (storeSlot widx w s) = if j = widx then storedWord widx w s else slotWord j s := by
  obtain ⟨m⟩ := j
  obtain ⟨n⟩ := widx
  fin_cases n <;> fin_cases m <;> rfl

/-- Settles O23: by the slot written. -/
theorem writeReachesItsSlotOnly : Obligations.WriteReachesItsSlotOnly := by
  intro widx w s hidle hw
  refine ⟨storeSlot widx w s, (runEvent_busWrite widx w s).trans (exec_writeRow_of_idle w hidle hw), ?other, ?_⟩
  case other => exact fun j hj => by rw [slotWord_storeSlot, if_neg hj]
  rw [slotWord_storeSlot, if_pos rfl]
  have hlow : (w.extractLsb' 0 16).toNat = w.toNat % 65536 := by
    rw [BitVec.extractLsb'_toNat, Nat.shiftRight_zero]
  refine ⟨fun h => ?bright, fun ⟨hlo, hhi⟩ => ?argument, fun h => ?steps, fun h => ?ignored⟩ <;> unfold storedWord
  case bright =>
    have hle := clampPercent_le w
    rw [h, ← clampPercent_toNat]
    simp only [BitVec.toNat_setWidth]
    omega
  case argument =>
    obtain h | h | h | h | h : widx.toNat = 3 ∨ widx.toNat = 4 ∨ widx.toNat = 5 ∨ widx.toNat = 6 ∨ widx.toNat = 7 := by
      omega
    all_goals
      rw [h]
      rfl
  case steps =>
    rw [h]
    simp only [BitVec.toNat_setWidth, hlow]
    omega
  case ignored =>
    split
    case h_8 => rfl
    all_goals omega

/-- Settles O21: the data word is dropped. -/
theorem ignoredWritesChangeNothing : Obligations.IgnoredWritesChangeNothing := fun _ _ =>
  ⟨rfl, rfl, rfl, rfl, rfl, rfl, rfl⟩

end Writes

section Commands

/-- Settles O26: the accept path of SET. -/
theorem setTransmitsScaledColour : Obligations.SetTransmitsScaledColour := fun _ hidle =>
  exec_of_acceptedCommand (i := .set) rfl hidle

theorem startBlink_of_count_zero {s : State} (h : s.count = 0#32) : startBlink s = latchBlink s := by
  simpa [h] using startBlink_cases s

theorem startBlink_of_count_ne_zero {s : State} (h : s.count ≠ 0#32) :
    startBlink s = enter .blinkOn 0#32 (blinkColour (latchBlink s)) (latchBlink s) := by
  simpa [h] using startBlink_cases s

/-- Settles O27: by whether COUNT is 0. -/
theorem blinkStarts : Obligations.BlinkStarts := by
  intro s hidle
  have hexec : exec .blink s = .next (startBlink s) := exec_of_acceptedCommand (c := .blink) rfl hidle
  rw [hexec]
  exact ⟨fun h => congrArg Host.Outcome.next (startBlink_of_count_zero h),
    fun h => congrArg Host.Outcome.next (startBlink_of_count_ne_zero h)⟩

section CmdWrite

variable {w : Word} {s : State}

/-- A word up to SET's issues a transmit and raises nothing. -/
theorem startCommand_of_le_eight (h : w.toNat ≤ 8) :
    ∃ c, startCommand (decodeCommand w) s = enter .single 0#32 c s := by
  obtain ⟨hfixed, hset, _⟩ := commandWordsDecode w
  obtain hlt | heq := h.lt_or_eq
  · rw [hfixed hlt]
    exact ⟨_, rfl⟩
  · rw [hset heq]
    exact ⟨_, rfl⟩

theorem decodeCommand_of_eq_nine (h : w.toNat = 9) : decodeCommand w = .blink := (commandWordsDecode w).2.2.1 h

theorem decodeCommand_of_eq_ten (h : w.toNat = 10) : decodeCommand w = .pulse := (commandWordsDecode w).2.2.2.1 h

theorem decodeCommand_of_eleven_le (h : 11 ≤ w.toNat) : decodeCommand w = .illegal := (commandWordsDecode w).2.2.2.2 h

/-- Settles O29: by the phase, then by the value of the word and the length of its effect. -/
theorem cmdWriteChecksInOrder : Obligations.CmdWriteChecksInOrder := by
  intro w s
  by_cases hidle : s.phase = .idle
  case neg =>
    refine ⟨_, exec_of_busy rfl hidle, rfl, fun _ => ⟨rfl, rfl, rfl⟩, ?_⟩
    simp [hidle]
  refine ⟨_, exec_of_acceptedCommand rfl hidle, ?_⟩
  obtain h | h | h | h : w.toNat ≤ 8 ∨ w.toNat = 9 ∨ w.toNat = 10 ∨ 11 ≤ w.toNat := by omega
  · obtain ⟨c, hs⟩ := startCommand_of_le_eight (s := s) h
    have h9 : w.toNat ≠ 9 := by omega
    have h10 : w.toNat ≠ 10 := by omega
    have h11 : ¬ 11 ≤ w.toNat := by omega
    simp [hs, hidle, h9, h10, h11]
  · rw [decodeCommand_of_eq_nine h, startCommand]
    obtain ⟨hcount, hs⟩ | ⟨hcount, hs⟩ := startBlink_cases s <;> simp [hs, hidle, h, hcount]
  · rw [decodeCommand_of_eq_ten h, startCommand]
    obtain ⟨hsteps, hs⟩ | ⟨hsteps, hs⟩ := startPulse_cases s <;> simp [hs, hidle, h, hsteps]
  · have h9 : w.toNat ≠ 9 := by omega
    have h10 : w.toNat ≠ 10 := by omega
    have h8 : ¬ w.toNat ≤ 8 := by omega
    have hle : ¬ w.toNat ≤ 10 := by omega
    simp [decodeCommand_of_eleven_le h, startCommand, startIllegal, hidle, h, h8, h9, h10, hle]

end CmdWrite

section Pseudo

variable {s : State}

theorem runEvents_cons_of_next {e : Event} {es : List Event} {t : State} (h : runEvent e s = .next t) :
    runEvents (e :: es) s = runEvents es t := by
  rw [runEvents, h]

theorem runEvents_busWrite (widx : BitVec 4) (w : Word) {es : List Event} {t : State}
    (h : exec (writeRow widx w) s = .next t) : runEvents (busWrite widx w :: es) s = runEvents es t :=
  runEvents_cons_of_next ((runEvent_busWrite widx w s).trans h)

/-- SETRGB is three register writes and SET (30_encoding.md R80). -/
theorem runEvents_setRgb (hidle : s.phase = .idle) (r g b : Word) :
    runEvents [busWrite 3#4 r, busWrite 4#4 g, busWrite 5#4 b, busWrite 0#4 0x8#32] s =
      .next (startSet { s with chR := r, chG := g, chB := b }) := by
  have hset : exec (.wrCmd 0x8#32) { s with chR := r, chG := g, chB := b } =
      .next (startSet { s with chR := r, chG := g, chB := b }) :=
    exec_of_acceptedCommand (c := .set) (by decide) hidle
  calc
    _ = runEvents [busWrite 4#4 g, busWrite 5#4 b, busWrite 0#4 0x8#32] { s with chR := r } :=
      runEvents_busWrite 3#4 r (exec_wrChR_of_idle r hidle)
    _ = runEvents [busWrite 5#4 b, busWrite 0#4 0x8#32] { s with chR := r, chG := g } :=
      runEvents_busWrite 4#4 g (exec_wrChG_of_idle (s := { s with chR := r }) g hidle)
    _ = runEvents [busWrite 0#4 0x8#32] { s with chR := r, chG := g, chB := b } :=
      runEvents_busWrite 5#4 b (exec_wrChB_of_idle (s := { s with chR := r, chG := g }) b hidle)
    _ = .next (startSet { s with chR := r, chG := g, chB := b }) := runEvents_busWrite 0#4 0x8#32 hset

/-- SETBRIGHT of an integer percent is one write of BRIGHT (30_encoding.md R80). -/
theorem expand_setBright {p : Int} {den : Nat} (hden : 0 < den) (hlow : -2 ^ 31 ≤ p) (hhigh : p < 2 ^ 31) :
    expand (.setBright (p * den) den) = .ok [busWrite 2#4 (BitVec.ofInt 32 p)] := by
  have hne : (den : Int) ≠ 0 := by omega
  have hdiv : p * den / den = p := Int.mul_ediv_cancel p hne
  have hmod : p * den % den = 0 := Int.mul_emod_left p den
  rw [expand, hdiv, if_pos ⟨hden.ne', hmod, hlow, hhigh⟩]

theorem toInt_ofInt_of_range {p : Int} (hlow : -2 ^ 31 ≤ p) (hhigh : p < 2 ^ 31) : (BitVec.ofInt 32 p).toInt = p := by
  rw [BitVec.toInt_ofInt]
  exact Int.bmod_eq_of_le hlow hhigh

/-- Settles O30: the lines expand to writes taken while idle. -/
theorem pseudoInstructions : Obligations.PseudoInstructions := by
  intro s hidle
  refine ⟨fun r g b => ⟨_, rfl, rfl, runEvents_setRgb hidle r g b⟩, fun p den hden =>
    ⟨fun hlow hhigh => ?integer, fun hfraction => ?fraction⟩⟩
  case integer =>
    refine ⟨_, clampPercent (BitVec.ofInt 32 p), expand_setBright hden hlow hhigh, ?_, ?_⟩
    · exact runEvents_busWrite 2#4 _ (exec_wrBright_of_idle _ hidle)
    · rw [clampPercent_toNat, toInt_ofInt_of_range hlow hhigh]
  case fraction =>
    exact if_neg fun ⟨_, hmod, _⟩ => hfraction (Int.dvd_of_emod_eq_zero hmod)

end Pseudo

end Commands

section Reset

/-- Settles O43: the percent is the configured one, clamped. -/
theorem resetEvent : Obligations.ResetEvent := fun s => ⟨clampPercent s.cfg.initPct, clampPercent_toNat _, rfl⟩

/-- Settles O44: the reset state is one concrete state, read slot by slot. -/
theorem resetState : Obligations.ResetState := by
  refine ⟨?_, ?_, ?_, ?_, ?_, ?_, rfl, rfl⟩ <;> decide

end Reset

end Sys2Proof.Machine
end

