-- ==== Sys2Proof/Proofs/EffectRuns.lean ====
section
/-! PROOFS. The effects as runs of events: a blink and a pulse answered OK throughout (43_effect_timer.md R169, 44_blink.md
R181, R185, 45_pulse.md R193, R196, R197), and the two ways to hang (70_reset_and_hazards.md R252, R253). -/

namespace Sys2Proof.Machine

section Runs

/-- Events one after another. -/
theorem runEvents_append {es fs : List Event} {s t : State} (h : runEvents es s = .next t) :
    runEvents (es ++ fs) s = runEvents fs t := by
  induction es generalizing s with
  | nil => cases h; rfl
  | cons e es ih =>
    rw [runEvents] at h
    rw [List.cons_append, runEvents]
    cases hu : runEvent e s with
    | next u => rw [hu] at h; exact ih h
    | fault r => rw [hu] at h; cases h
    | refused r => rw [hu] at h; cases h

theorem runEvents_take_append {es fs : List Event} {s t : State} {n : Nat} (h : runEvents es s = .next t)
    (hn : es.length ≤ n) : runEvents ((es ++ fs).take n) s = runEvents (fs.take (n - es.length)) t := by
  rw [List.take_append, List.take_of_length_le hn, runEvents_append h]

theorem phasesEvents_append (ld : Nat) (ms ms' : List Nat) :
    phasesEvents ld (ms ++ ms') = phasesEvents ld ms ++ phasesEvents ld ms' := by
  simp [phasesEvents]

theorem phasesEvents_cons (ld m : Nat) (ms : List Nat) :
    phasesEvents ld (m :: ms) = phaseEvents ld m ++ phasesEvents ld ms := rfl

theorem runEvents_tick {s t : State} (es : List Event) (h : tick s = t) : runEvents (.tick :: es) s = runEvents es t :=
  runEvents_cons_of_next (e := .tick) (congrArg Host.Outcome.next h)

/-- Ticks that are discarded, however many. -/
theorem runEvents_ticks_discarded {s : State} (h : tick s = s) (m : Nat) :
    runEvents (List.replicate m .tick) s = .next s := by
  induction m with
  | zero => rfl
  | succ m ih => rwa [List.replicate_succ, runEvents_tick _ h]

/-- A wait with `n` ticks to go. -/
def withWait (n : Nat) (s : State) : State := { s with waitcnt := BitVec.ofNat 32 n }

section Ticks

variable {s : State} (hw : waiting s.phase = true) (ht : s.txp = false)
include hw ht

theorem tick_withWait {n : Nat} (hn : n + 2 < 2 ^ 32) : tick (withWait (n + 2) s) = withWait (n + 1) s := by
  have hcount : (withWait (n + 2) s).waitcnt.toNat = n + 2 := Nat.mod_eq_of_lt hn
  refine (tick_of_two_le (s := withWait (n + 2) s) hw ht (by omega)).trans ?_
  rw [hcount]
  rfl

theorem tick_withWait_one : tick (withWait 1 s) = advance (withWait 0 s) :=
  tick_of_eq_one (s := withWait 1 s) hw ht rfl

/-- Ticks before the end of a wait count down (43_effect_timer.md R163). -/
theorem runEvents_ticks_counted (n left : Nat) (hn : n + left + 1 < 2 ^ 32) :
    runEvents (List.replicate n .tick) (withWait (n + left + 1) s) = .next (withWait (left + 1) s) := by
  induction n with
  | zero => rw [Nat.zero_add]; rfl
  | succ n ih =>
    have hsum : n + 1 + left + 1 = n + left + 2 := by omega
    rw [List.replicate_succ, hsum, runEvents_tick _ (tick_withWait hw ht (by omega)), ih (by omega)]

/-- As many ticks as the wait has end it (43_effect_timer.md R163). -/
theorem runEvents_ticks_ended (n : Nat) (hn : n + 1 < 2 ^ 32) :
    runEvents (List.replicate (n + 1) .tick) (withWait (n + 1) s) = .next (advance (withWait 0 s)) := by
  rw [List.replicate_succ', runEvents_append (runEvents_ticks_counted hw ht n 0 hn),
    runEvents_tick _ (tick_withWait_one hw ht)]
  rfl

end Ticks

end Runs

section Phases

/-- A transmit of `c` answered OK: all it leaves behind once the next phase is entered. -/
def logOk (u : State) (c : Rgb) : State := { u with led := .known c, txlog := u.txlog ++ [okEntry c] }

/-- The end of the wait of the phase that `enter p k c u` began, its request answered OK. -/
def waitedOut (p : Phase) (k : BitVec 32) (c : Rgb) (u : State) : State :=
  { logOk u c with phase := p, idx := k, waitcnt := 0#32, slot := c, txp := false }

variable {p : Phase} {k : BitVec 32} {c : Rgb} {u : State}

/-- While a request is outstanding ticks are discarded (43_effect_timer.md R164). -/
theorem runEvents_ticks_enter (m : Nat) :
    runEvents (List.replicate m .tick) (enter p k c u) = .next (enter p k c u) :=
  runEvents_ticks_discarded (tick_of_no_wait (.inr (.inl rfl))) m

theorem runEvent_txOk_enter : runEvent .txOk (enter p k c u) = .next (phaseDone (waitedOut p k c u)) :=
  runEvent_txOk rfl rfl

/-- The ticks before the answer, then the answer. -/
theorem runEvents_answered (m : Nat) (es : List Event) :
    runEvents (List.replicate m .tick ++ .txOk :: es) (enter p k c u) = runEvents es (phaseDone (waitedOut p k c u)) := by
  rw [runEvents_append (runEvents_ticks_enter m), runEvents_cons_of_next runEvent_txOk_enter]

/-- An answered phase waits its LD ticks. -/
theorem phaseDone_waitedOut {n : Nat} (hw : waiting p = true) (hld : u.ld.toNat = n + 1) :
    phaseDone (waitedOut p k c u) = withWait (n + 1) (waitedOut p k c u) := by
  have hne : u.ld ≠ 0#32 := by bv_omega
  have hword : u.ld = BitVec.ofNat 32 (n + 1) := by bv_omega
  rw [phaseDone_of_delay (s := waitedOut p k c u) hw hne, withWait, ← hword]
  rfl

variable {ld : Nat} (hw : waiting p = true) (hld : u.ld.toNat = ld)
include hw hld

/-- A phase with a wait, answered OK, lasts its LD ticks and ends in `Advance` (43_effect_timer.md R161 to R163). -/
theorem runEvents_phase (m : Nat) :
    runEvents (phaseEvents ld m) (enter p k c u) = .next (advance (waitedOut p k c u)) := by
  rw [phaseEvents, runEvents_answered]
  cases ld with
  | zero =>
    rw [phaseDone_of_zero_delay (s := waitedOut p k c u) hw (BitVec.eq_of_toNat_eq hld)]
    rfl
  | succ n =>
    have hrange := u.ld.isLt
    rw [phaseDone_waitedOut hw hld, runEvents_ticks_ended hw rfl n (by omega)]
    rfl

/-- Before the last of its events a phase is not left, and BRIGHT.P is kept. -/
theorem runEvents_phase_take {m n : Nat} (hn : n < (phaseEvents ld m).length) :
    ∃ t, runEvents ((phaseEvents ld m).take n) (enter p k c u) = .next t ∧ t.phase = p ∧ t.brightP = u.brightP := by
  have hlength : (phaseEvents ld m).length = m + (ld + 1) := by simp [phaseEvents]
  rw [phaseEvents, List.take_append, List.take_replicate, List.length_replicate]
  obtain hle | hlt := Nat.lt_or_ge m n |>.symm
  · rw [Nat.sub_eq_zero_of_le hle, List.take_zero, List.append_nil]
    exact ⟨_, runEvents_ticks_enter _, rfl, rfl⟩
  · obtain ⟨j, rfl⟩ : ∃ j, n = m + (j + 1) := ⟨n - (m + 1), by omega⟩
    obtain ⟨left, rfl⟩ : ∃ left, ld = j + left + 1 := ⟨ld - (j + 1), by omega⟩
    have hrange := u.ld.isLt
    rw [Nat.min_eq_right (by omega), Nat.add_sub_cancel_left, List.take_succ_cons, List.take_replicate,
      Nat.min_eq_left (by omega), runEvents_answered, phaseDone_waitedOut hw hld]
    exact ⟨_, runEvents_ticks_counted hw rfl j left (by omega), rfl, rfl⟩

end Phases

section Log

/-- Transmits answered OK, one after another. -/
def logAllOk (cs : List Rgb) (u : State) : State := cs.foldl logOk u

theorem logAllOk_append (cs ds : List Rgb) (u : State) : logAllOk (cs ++ ds) u = logAllOk ds (logAllOk cs u) :=
  List.foldl_append

/-- They change the two records only. -/
theorem logAllOk_frame (cs : List Rgb) (u : State) :
    ∃ led txlog, logAllOk cs u = { u with led := led, txlog := txlog } := by
  induction cs generalizing u with
  | nil => exact ⟨u.led, u.txlog, rfl⟩
  | cons c cs ih => exact ih (logOk u c)

/-- What they leave: their entries in TXLOG, and the last of them in LED. -/
theorem logAllOk_eq {cs : List Rgb} {c : Rgb} (hlast : cs.getLast? = some c) (u : State) :
    logAllOk cs u = { u with led := .known c, txlog := u.txlog ++ cs.map okEntry } := by
  induction cs generalizing u with
  | nil => cases hlast
  | cons d cs ih =>
    cases cs with
    | nil => cases hlast; rfl
    | cons e cs =>
      refine (ih (by simpa using hlast) (logOk u d)).trans ?_
      simp [logOk]

/-- The end of an effect whose last triple was off. -/
def endedOff (u : State) : State :=
  { u with phase := .idle, idx := 0#32, waitcnt := 0#32, slot := Rgb.off, txp := false }

end Log

section Blink

/-- The command word of BLINK, taken while idle with COUNT not 0 (44_blink.md R180). -/
theorem exec_wrCmd_blink {s : State} (hidle : s.phase = .idle) (hcount : s.count ≠ 0#32) :
    exec (.wrCmd 0x9#32) s = .next (enter .blinkOn 0#32 (blinkColour (latchBlink s)) (latchBlink s)) := by
  rw [exec_of_acceptedCommand (c := .blink) (by decide) hidle, startCommand, startBlink_of_count_ne_zero hcount]

theorem toNat_ofNat_of_lt {k : Nat} {n : BitVec 32} (h : k < n.toNat) : (BitVec.ofNat 32 k).toNat = k := by
  rw [BitVec.toNat_ofNat]
  omega

section Cycles

variable {k ld : Nat} {u : State} (hld : u.ld.toNat = ld)
include hld

/-- The colour phase of a cycle (44_blink.md R182). -/
theorem runEvents_blink_on {k : BitVec 32} (c : Rgb) (m : Nat) :
    runEvents (phaseEvents ld m) (enter .blinkOn k c u) = .next (enter .blinkOff k Rgb.off (logOk u c)) :=
  (runEvents_phase rfl hld m).trans (congrArg Host.Outcome.next (advance_of_blinkOn rfl))

/-- An off phase with a cycle left (44_blink.md R183). -/
theorem runEvents_blink_off_of_lt (m : Nat) (h : k + 1 < u.ln.toNat) :
    runEvents (phaseEvents ld m) (enter .blinkOff (BitVec.ofNat 32 k) Rgb.off u) =
      .next (enter .blinkOn (BitVec.ofNat 32 (k + 1)) (blinkColour u) (logOk u Rgb.off)) := by
  have hk : (waitedOut .blinkOff (BitVec.ofNat 32 k) Rgb.off u).idx.toNat = k := toNat_ofNat_of_lt (n := u.ln) (by omega)
  rw [runEvents_phase rfl hld m, advance_of_blinkOff_of_lt rfl (by rwa [hk]), hk]
  rfl

/-- The last off phase (44_blink.md R183). -/
theorem runEvents_blink_off_of_eq (m : Nat) (h : k + 1 = u.ln.toNat) :
    runEvents (phaseEvents ld m) (enter .blinkOff (BitVec.ofNat 32 k) Rgb.off u) =
      .next (endedOff (logOk u Rgb.off)) := by
  have hk : (waitedOut .blinkOff (BitVec.ofNat 32 k) Rgb.off u).idx.toNat = k := toNat_ofNat_of_lt (n := u.ln) (by omega)
  rw [runEvents_phase rfl hld m, advance_of_blinkOff_of_le rfl (by rw [hk]; exact h.ge)]
  rfl

/-- The last `r + 1` cycles of a blink, from cycle `k` (44_blink.md R181, R185). -/
theorem runEvents_blink {r : Nat} {ms : List Nat} (hr : k + (r + 1) = u.ln.toNat) (hms : ms.length = 2 * (r + 1)) :
    runEvents (phasesEvents ld ms) (enter .blinkOn (BitVec.ofNat 32 k) (blinkColour u) u) =
      .next (endedOff (logAllOk (List.replicate (r + 1) [blinkColour u, Rgb.off]).flatten u)) := by
  induction r generalizing k u ms with
  | zero =>
    obtain ⟨m, m', rfl⟩ := List.length_eq_two.mp hms
    rw [phasesEvents_cons, runEvents_append (runEvents_blink_on hld _ m), phasesEvents_cons,
      runEvents_append (runEvents_blink_off_of_eq (u := logOk u (blinkColour u)) hld m' hr)]
    rfl
  | succ r ih =>
    obtain _ | ⟨m, _ | ⟨m', ms⟩⟩ := ms
    case nil | cons.nil => simp only [List.length_cons, List.length_nil] at hms; omega
    have hlt : k + 1 < u.ln.toNat := by omega
    rw [phasesEvents_cons, runEvents_append (runEvents_blink_on hld _ m), phasesEvents_cons,
      runEvents_append (runEvents_blink_off_of_lt (u := logOk u (blinkColour u)) hld m' hlt),
      List.replicate_succ, List.flatten_cons, logAllOk_append]
    have hleft : k + 1 + (r + 1) = u.ln.toNat := by omega
    exact ih (u := logOk (logOk u (blinkColour u)) Rgb.off) hld hleft (by simp only [List.length_cons] at hms; omega)

/-- Before the last event of its off phase a cycle keeps the block busy. -/
theorem runEvents_cycle_take {k : BitVec 32} {c : Rgb} {m m' n : Nat} (es : List Event)
    (hn : n < (phaseEvents ld m).length + (phaseEvents ld m').length) :
    ∃ t, runEvents ((phaseEvents ld m ++ (phaseEvents ld m' ++ es)).take n) (enter .blinkOn k c u) = .next t ∧
      t.phase ≠ .idle ∧ t.brightP = u.brightP := by
  obtain hon | hoff := Nat.lt_or_ge n (phaseEvents ld m).length
  · obtain ⟨t, ht, hphase, hbright⟩ := runEvents_phase_take (p := .blinkOn) (k := k) (c := c) rfl hld hon
    rw [List.take_append_of_le_length hon.le]
    exact ⟨t, ht, by simp [hphase], hbright⟩
  · have hn' : n - (phaseEvents ld m).length < (phaseEvents ld m').length := by omega
    obtain ⟨t, ht, hphase, hbright⟩ :=
      runEvents_phase_take (p := .blinkOff) (k := k) (c := Rgb.off) (u := logOk u c) rfl hld hn'
    rw [runEvents_take_append (runEvents_blink_on hld c m) hoff, List.take_append_of_le_length hn'.le]
    exact ⟨t, ht, by simp [hphase], hbright⟩

/-- Until the last of their events those cycles keep the block busy (43_effect_timer.md R171). -/
theorem runEvents_blink_take {r n : Nat} {ms : List Nat} (hr : k + (r + 1) = u.ln.toNat) (hms : ms.length = 2 * (r + 1))
    (hn : n < (phasesEvents ld ms).length) :
    ∃ t, runEvents ((phasesEvents ld ms).take n) (enter .blinkOn (BitVec.ofNat 32 k) (blinkColour u) u) = .next t ∧
      t.phase ≠ .idle ∧ t.brightP = u.brightP := by
  induction r generalizing k u ms n with
  | zero =>
    obtain ⟨m, m', rfl⟩ := List.length_eq_two.mp hms
    exact runEvents_cycle_take hld _ (by simpa [phasesEvents] using hn)
  | succ r ih =>
    obtain _ | ⟨m, _ | ⟨m', ms⟩⟩ := ms
    case nil | cons.nil => simp only [List.length_cons, List.length_nil] at hms; omega
    rw [phasesEvents_cons, phasesEvents_cons] at hn ⊢
    simp only [List.length_append] at hn
    by_cases hcycle : n < (phaseEvents ld m).length + (phaseEvents ld m').length
    · exact runEvents_cycle_take hld _ hcycle
    · have hlt : k + 1 < u.ln.toNat := by omega
      have hleft : k + 1 + (r + 1) = u.ln.toNat := by omega
      rw [runEvents_take_append (runEvents_blink_on hld _ m) (by omega),
        runEvents_take_append (runEvents_blink_off_of_lt (u := logOk u (blinkColour u)) hld m' hlt) (by omega)]
      exact ih (u := logOk (logOk u (blinkColour u)) Rgb.off) hld hleft (by simp only [List.length_cons] at hms; omega)
        (by omega)

end Cycles

theorem exists_count_eq_succ {n : Word} (h : n ≠ 0#32) : ∃ r, n.toNat = r + 1 :=
  Nat.exists_eq_succ_of_ne_zero fun hzero => h (BitVec.eq_of_toNat_eq hzero)

/-- Settles O45: the accepted command, then its cycles. -/
theorem blinkRunsToTheEnd : Obligations.BlinkRunsToTheEnd := by
  intro s ms hidle hcount hms
  obtain ⟨r, hr⟩ := exists_count_eq_succ hcount
  rw [hr] at hms
  have hcycles := runEvents_blink (k := 0) (u := latchBlink s) rfl (hr ▸ Nat.zero_add (r + 1)) hms
  rw [runEvents_busWrite 0#4 0x9#32 (exec_wrCmd_blink hidle hcount), hr]
  refine hcycles.trans (congrArg Host.Outcome.next ?_)
  rw [logAllOk_eq (c := Rgb.off) (by simp [List.replicate_succ']), List.map_flatten, List.map_replicate]
  rfl

/-- Settles O46: the accepted command, then its cycles, cut short. -/
theorem blinkBusyUntilTheEnd : Obligations.BlinkBusyUntilTheEnd := by
  intro s ms n hidle hcount hms hn
  obtain ⟨r, hr⟩ := exists_count_eq_succ hcount
  rw [hr] at hms
  rw [runEvents_busWrite 0#4 0x9#32 (exec_wrCmd_blink hidle hcount)]
  exact runEvents_blink_take (k := 0) (u := latchBlink s) rfl (hr ▸ Nat.zero_add (r + 1)) hms hn

end Blink

section Pulse

/-- The command word of PULSE, taken while idle with STEPS not 0 (45_pulse.md R190). -/
theorem exec_wrCmd_pulse {s : State} (hidle : s.phase = .idle) (hsteps : s.steps ≠ 0#16) :
    exec (.wrCmd 0xA#32) s = .next (enter .rampUp 0#32 Rgb.off (latchPulse s)) := by
  rw [exec_of_acceptedCommand (c := .pulse) (by decide) hidle, startCommand, startPulse_of_steps_ne_zero hsteps]

/-- The level of ramp index `i`, as a number. -/
def levelAt (u : State) (i : Nat) : Rgb := rampLevel (BitVec.ofNat 32 i) u

section Ramps

variable {ld : Nat} {u : State} (hld : u.ld.toNat = ld)
include hld

/-- The way up from level `i` to the top, which is entered again on the way down (45_pulse.md R193, R194). -/
theorem runEvents_rampUp {i r : Nat} {ms : List Nat} (hr : i + r = u.ls.toNat) (hms : ms.length = r + 1) :
    runEvents (phasesEvents ld ms) (enter .rampUp (BitVec.ofNat 32 i) (levelAt u i) u) =
      .next (enter .rampDown (BitVec.ofNat 32 u.ls.toNat) (levelAt u u.ls.toNat)
        (logAllOk ((List.range' i (r + 1)).map (levelAt u)) u)) := by
  have hrange := u.ls.isLt
  have hi : (waitedOut .rampUp (BitVec.ofNat 32 i) (levelAt u i) u).idx.toNat = i := by
    simp only [waitedOut, BitVec.toNat_ofNat]
    omega
  induction r generalizing i u ms with
  | zero =>
    obtain ⟨m, rfl⟩ := List.length_eq_one_iff.mp hms
    rw [phasesEvents_cons, runEvents_append (runEvents_phase rfl hld m),
      advance_of_rampUp_of_le rfl (by rw [hi]; exact hr.ge)]
    rfl
  | succ r ih =>
    obtain _ | ⟨m, ms⟩ := ms
    case nil => cases hms
    rw [phasesEvents_cons, runEvents_append (runEvents_phase rfl hld m),
      advance_of_rampUp_of_lt rfl (by rw [hi]; show i < u.ls.toNat; omega), hi]
    have hleft : i + 1 + r = u.ls.toNat := by omega
    exact ih (u := logOk u (levelAt u i)) hld hleft (Nat.succ.inj hms) hrange
      (by simp only [waitedOut, BitVec.toNat_ofNat]; omega)

/-- The way down from level `i` to the final off (45_pulse.md R193, R195). -/
theorem runEvents_rampDown {i : Nat} {ms : List Nat} (hi : i < 2 ^ 32) (hms : ms.length = i + 1) :
    runEvents (phasesEvents ld ms) (enter .rampDown (BitVec.ofNat 32 i) (levelAt u i) u) =
      .next (enter .finalOff 0#32 Rgb.off (logAllOk ((List.range (i + 1)).reverse.map (levelAt u)) u)) := by
  have hidx : (waitedOut .rampDown (BitVec.ofNat 32 i) (levelAt u i) u).idx.toNat = i := Nat.mod_eq_of_lt hi
  induction i generalizing u ms with
  | zero =>
    obtain ⟨m, rfl⟩ := List.length_eq_one_iff.mp hms
    rw [phasesEvents_cons, runEvents_append (runEvents_phase rfl hld m), advance_of_rampDown_of_eq_zero rfl hidx]
    rfl
  | succ i ih =>
    obtain _ | ⟨m, ms⟩ := ms
    case nil => cases hms
    rw [phasesEvents_cons, runEvents_append (runEvents_phase rfl hld m),
      advance_of_rampDown_of_pos rfl (by rw [hidx]; exact i.succ_pos), hidx, List.range_succ, List.reverse_concat]
    exact ih (u := logOk u (levelAt u (i + 1))) hld (by omega) (Nat.succ.inj hms) (Nat.mod_eq_of_lt (by omega))

end Ramps

/-- The final off has no wait: its answer ends the pulse (45_pulse.md R193). -/
theorem runEvents_finalOff (u : State) (m : Nat) :
    runEvents (phaseEvents 0 m) (enter .finalOff 0#32 Rgb.off u) = .next (endedOff (logOk u Rgb.off)) := by
  rw [phaseEvents, runEvents_answered, phaseDone_of_not_waiting (s := waitedOut .finalOff 0#32 Rgb.off u) nofun rfl]
  rfl

/-- The triples of a pulse: up, down, off (45_pulse.md R193). -/
def pulseTriples (u : State) : List Rgb :=
  (List.range (u.ls.toNat + 1)).map (levelAt u) ++ (List.range (u.ls.toNat + 1)).reverse.map (levelAt u) ++ [Rgb.off]

/-- A pulse from its first level to its end (45_pulse.md R193). -/
theorem runEvents_pulse {u : State} {ms : List Nat} (last : Nat) (hms : ms.length = 2 * (u.ls.toNat + 1)) :
    runEvents (phasesEvents u.ld.toNat ms ++ phaseEvents 0 last) (enter .rampUp 0#32 Rgb.off u) =
      .next (endedOff (logAllOk (pulseTriples u) u)) := by
  have hrange := u.ls.isLt
  obtain ⟨led, txlog, hup⟩ := logAllOk_frame ((List.range (u.ls.toNat + 1)).map (levelAt u)) u
  have hms_up : (ms.take (u.ls.toNat + 1)).length = u.ls.toNat + 1 := by
    rw [List.length_take]
    omega
  have hms_down : (ms.drop (u.ls.toNat + 1)).length = u.ls.toNat + 1 := by
    rw [List.length_drop]
    omega
  have hstart : Rgb.off = levelAt u 0 := (rampLevel_zero u).symm
  have hrampUp := runEvents_rampUp (u := u) (i := 0) rfl (Nat.zero_add _) hms_up
  rw [← List.range_eq_range', ← hstart, hup] at hrampUp
  have hrampDown := runEvents_rampDown (u := { u with led := led, txlog := txlog }) (i := u.ls.toNat) rfl (by omega) hms_down
  rw [pulseTriples, logAllOk_append, logAllOk_append, hup, ← List.take_append_drop (u.ls.toNat + 1) ms,
    phasesEvents_append, runEvents_append ((runEvents_append hrampUp).trans hrampDown), runEvents_finalOff]
  rfl

/-- Settles O47: the accepted command, the way up, the way down, the final off. -/
theorem pulseRunsToTheEnd : Obligations.PulseRunsToTheEnd := by
  intro s ms last hidle hsteps hms
  rw [runEvents_busWrite 0#4 0xA#32 (exec_wrCmd_pulse hidle hsteps)]
  refine (runEvents_pulse (u := latchPulse s) last hms).trans (congrArg Host.Outcome.next ?_)
  rw [logAllOk_eq (c := Rgb.off) (by simp [pulseTriples]), pulseTriples, List.map_append, List.map_append,
    List.map_map, List.map_map]
  rfl

end Pulse

section Hangs

theorem keepsSequencer_rfl (s : State) : KeepsSequencer s s := by constructor <;> rfl

/-- Events that do not reach the sequencer, however many, do not reach it. -/
theorem runEvents_keepsSequencer {s : State} {es : List Event}
    (h : ∀ e ∈ es, ∀ u, KeepsSequencer s u → ∃ t, runEvent e u = .next t ∧ KeepsSequencer u t) :
    ∀ u, KeepsSequencer s u → ∃ t, runEvents es u = .next t ∧ KeepsSequencer s t := by
  induction es with
  | nil => exact fun u hu => ⟨u, rfl, hu⟩
  | cons e es ih =>
    intro u hu
    obtain ⟨v, hv, hkeep⟩ := h e List.mem_cons_self u hu
    rw [runEvents_cons_of_next hv]
    exact ih (fun e he => h e (List.mem_cons_of_mem _ he)) v (hu.trans hkeep)

/-- A host access to a busy block answers and does not reach the sequencer. -/
theorem runEvent_access_keepsSequencer {s : State} (key : BitVec 5) (data : Word) (hbusy : s.phase ≠ .idle) :
    ∃ t, runEvent (.access key data) s = .next t ∧ KeepsSequencer s t := by
  obtain ⟨t, ht⟩ := exec_answers (decodeAccess key data) s
  exact ⟨t, ht, keepsSequencer_exec hbusy ht⟩

/-- Settles O48: with a request outstanding a tick is discarded, and the host does not reach the sequencer. -/
theorem silentPrimitiveHangs : Obligations.SilentPrimitiveHangs := by
  intro s es ht hbusy hes
  obtain ⟨t, hrun, hkeep⟩ := runEvents_keepsSequencer (s := s) (es := es) (fun e he u hu => by
    obtain rfl | ⟨key, data, rfl⟩ := hes e he
    · have htick : tick u = u := tick_of_no_wait (.inr (.inl (hu.txp.trans ht)))
      exact ⟨u, congrArg Host.Outcome.next htick, keepsSequencer_rfl u⟩
    · exact runEvent_access_keepsSequencer key data (hu.phase ▸ hbusy)) s (keepsSequencer_rfl s)
  exact ⟨t, hrun, hkeep.txp.trans ht, hkeep.phase, hkeep.idx, hkeep.slot, hkeep.txlog, hkeep.led⟩

/-- Settles O49: the host does not reach the sequencer of a busy block. -/
theorem stoppedTickHangs : Obligations.StoppedTickHangs := by
  intro s es ht hbusy hes
  obtain ⟨t, hrun, hkeep⟩ := runEvents_keepsSequencer (s := s) (es := es) (fun e he u hu => by
    obtain ⟨key, data, rfl⟩ := hes e he
    exact runEvent_access_keepsSequencer key data (hu.phase ▸ hbusy)) s (keepsSequencer_rfl s)
  exact ⟨t, hrun, hkeep.txp.trans ht, hkeep.phase, hkeep.idx, hkeep.waitcnt, hkeep.slot, hkeep.txlog, hkeep.led⟩

end Hangs

end Sys2Proof.Machine
end

