-- ==== Sys2Proof/Proofs/Binary64Rounding.lean ====
section
/-! PROOFS. The rounding of binary64 (00_scope.md R10): where `rne64` puts the value, and that it is the nearest, monotone and
exact on representable values. -/

namespace Sys2Proof.Machine

section RoundEven

variable {n d : Nat}

/-- The rounded quotient is at most half a unit away, and even when it is exactly half a unit away. -/
theorem roundEven_nearest (hd : 0 < d) :
    |(n : ℚ) / d - roundEven n d| ≤ 1 / 2 ∧ (|(n : ℚ) / d - roundEven n d| = 1 / 2 → roundEven n d % 2 = 0) := by
  have hpos : (0 : ℚ) < d := by exact_mod_cast hd
  have hdiv : (n : ℚ) = (n / d : Nat) * d + (n % d : Nat) := by exact_mod_cast (Nat.div_add_mod' n d).symm
  obtain ⟨f, hf⟩ : ∃ f : ℚ, ((n % d : Nat) : ℚ) = f * d := ⟨(n % d : Nat) / d, (div_mul_cancel₀ _ hpos.ne').symm⟩
  have hquot : (n : ℚ) / d = (n / d : Nat) + f := by
    rw [div_eq_iff hpos.ne', add_mul, ← hf, ← hdiv]
  have hf0 : 0 ≤ f := nonneg_of_mul_nonneg_left (hf ▸ Nat.cast_nonneg _) hpos
  have hf1 : f < 1 := lt_of_mul_lt_mul_right (by rw [← hf, one_mul]; exact_mod_cast Nat.mod_lt n hd) hpos.le
  have htwice : ((2 * (n % d) : Nat) : ℚ) = 2 * f * d := by rw [Nat.cast_mul, hf]; ring
  simp only [roundEven]
  rw [hquot]
  split_ifs with hlow hhigh
  · have hf2 : 2 * f < 1 := lt_of_mul_lt_mul_right (by rw [← htwice, one_mul]; exact_mod_cast hlow) hpos.le
    rw [add_sub_cancel_left, abs_of_nonneg hf0]
    exact ⟨by linarith, fun h => by linarith⟩
  · have hf2 : 1 < 2 * f := lt_of_mul_lt_mul_right (by rw [← htwice, one_mul]; exact_mod_cast hhigh) hpos.le
    rw [Nat.cast_succ, add_sub_add_left_eq_sub, abs_of_neg (by linarith)]
    exact ⟨by linarith, fun h => by linarith⟩
  · have heq : 2 * (n % d) = d := by omega
    have hf2 : 2 * f = 1 := mul_right_cancel₀ hpos.ne' (by rw [← htwice, one_mul, heq])
    obtain heven | hodd := Nat.mod_two_eq_zero_or_one (n / d)
    · rw [heven, Nat.add_zero, add_sub_cancel_left, abs_of_nonneg hf0]
      exact ⟨by linarith, fun _ => heven⟩
    · rw [hodd, Nat.cast_succ, add_sub_add_left_eq_sub, abs_of_neg (by linarith)]
      exact ⟨by linarith, fun _ => by omega⟩

/-- Nearest among the natural numbers, ties to even. -/
theorem roundEven_le_abs (hd : 0 < d) (j : Nat) :
    |(n : ℚ) / d - roundEven n d| ≤ |(n : ℚ) / d - j| ∧
      (|(n : ℚ) / d - roundEven n d| = |(n : ℚ) / d - j| → roundEven n d ≠ j → roundEven n d % 2 = 0) := by
  obtain ⟨hhalf, htie⟩ := roundEven_nearest (n := n) hd
  by_cases hj : roundEven n d = j
  · exact ⟨by rw [hj], fun _ hne => absurd hj hne⟩
  · have hapart : (1 : ℚ) ≤ |(roundEven n d : ℚ) - j| := by
      exact_mod_cast Int.one_le_abs (sub_ne_zero.mpr (Nat.cast_injective.ne hj) : (roundEven n d : ℤ) - j ≠ 0)
    have htriangle := abs_sub_le (roundEven n d : ℚ) (n / d) j
    rw [abs_sub_comm (roundEven n d : ℚ) (n / d)] at htriangle
    exact ⟨by linarith, fun h _ => htie (by linarith)⟩

theorem roundEven_mono {n' d' : Nat} (hd : 0 < d) (hd' : 0 < d') (h : (n : ℚ) / d ≤ n' / d') :
    roundEven n d ≤ roundEven n' d' := by
  obtain ⟨hhalf, htie⟩ := roundEven_nearest (n := n) hd
  obtain ⟨hhalf', htie'⟩ := roundEven_nearest (n := n') hd'
  by_contra hlt
  have hsucc : (roundEven n' d' : ℚ) + 1 ≤ roundEven n d := by exact_mod_cast Nat.lt_of_not_le hlt
  have hlow := neg_le_of_abs_le hhalf
  have hhigh := le_of_abs_le hhalf'
  have heq : (roundEven n d : ℚ) = roundEven n' d' + 1 := by linarith
  have heven := htie (by rw [abs_of_neg (by linarith)]; linarith)
  have heven' := htie' (by rw [abs_of_pos (by linarith)]; linarith)
  have hnat : roundEven n d = roundEven n' d' + 1 := by exact_mod_cast heq
  omega

theorem roundEven_one (a : Nat) : roundEven a 1 = a := by
  simp [roundEven, Nat.mod_one]

theorem roundEven_le_of_le_mul {a : Nat} (hd : 0 < d) (h : n ≤ a * d) : roundEven n d ≤ a := by
  have hpos : (0 : ℚ) < d := by exact_mod_cast hd
  have hle := roundEven_mono (n := n) (n' := a) (d' := 1) hd one_pos (by rw [Nat.cast_one, div_one, div_le_iff₀ hpos]; exact_mod_cast h)
  rwa [roundEven_one] at hle

theorem le_roundEven_of_mul_le {a : Nat} (hd : 0 < d) (h : a * d ≤ n) : a ≤ roundEven n d := by
  have hpos : (0 : ℚ) < d := by exact_mod_cast hd
  have hle := roundEven_mono (n := a) (n' := n) (d := 1) one_pos hd (by rw [Nat.cast_one, div_one, le_div_iff₀ hpos]; exact_mod_cast h)
  rwa [roundEven_one] at hle

end RoundEven

section Scale

/-- The scale before the cut at the least exponent leaves 53 bits: the shifted quotient is from `2 ^ 52` up and below
`2 ^ 53`. -/
theorem scale_window {n d k : Nat} (hn : 0 < n) (hd : 0 < d) (hlt : n < 2 ^ 53 * d) (hk : k = 52 + d.log2 - n.log2) :
    2 ^ 52 * d ≤ n * 2 ^ k ∧ n * 2 ^ k < 2 ^ 53 * d ∨
      n * 2 ^ k < 2 ^ 52 * d ∧ 2 ^ 52 * d ≤ n * 2 ^ (k + 1) ∧ n * 2 ^ (k + 1) < 2 ^ 53 * d := by
  have hnlow := Nat.log2_self_le hn.ne'
  have hnhigh := Nat.lt_log2_self (n := n)
  have hdlow := Nat.log2_self_le hd.ne'
  have hdhigh := Nat.lt_log2_self (n := d)
  have hnext : n * 2 ^ (k + 1) = n * 2 ^ k * 2 := by rw [pow_succ, mul_assoc]
  rw [pow_succ] at hnhigh hdhigh
  rw [hnext]
  obtain hle | hgt := le_or_gt n.log2 (52 + d.log2)
  · have hsum : 2 ^ n.log2 * 2 ^ k = 2 ^ 52 * 2 ^ d.log2 := by
      rw [← pow_add, ← pow_add]
      congr 1
      omega
    have hlow : 2 ^ n.log2 * 2 ^ k ≤ n * 2 ^ k := Nat.mul_le_mul_right _ hnlow
    have hhigh : n * 2 ^ k < 2 ^ n.log2 * 2 * 2 ^ k := Nat.mul_lt_mul_of_pos_right hnhigh (by positivity)
    rw [mul_right_comm, hsum] at hhigh
    omega
  · have hzero : k = 0 := by omega
    have hpow : 2 ^ (53 + d.log2) ≤ 2 ^ n.log2 := Nat.pow_le_pow_right two_pos (by omega)
    rw [pow_add] at hpow
    rw [hzero, pow_zero]
    omega

/-- Cutting the scale keeps the window's upper end. -/
theorem window_min {n k low high : Nat} (most : Nat) (hlow : low ≤ n * 2 ^ k) (hhigh : n * 2 ^ k < high) :
    n * 2 ^ min k most < high ∧ (low ≤ n * 2 ^ min k most ∨ min k most = most) := by
  obtain hle | hge := le_total k most
  · rw [min_eq_left hle]
    exact ⟨hhigh, .inl hlow⟩
  · rw [min_eq_right hge]
    exact ⟨(Nat.mul_le_mul_left n (Nat.pow_le_pow_right two_pos hge)).trans_lt hhigh, .inr rfl⟩

theorem rne64Scale_le (n d : Nat) : rne64Scale n d ≤ 1074 := min_le_right _ _

/-- `rne64Scale` leaves at most 53 bits, and 53 exactly but at the least exponent. -/
theorem rne64Scale_spec {n d : Nat} (hn : 0 < n) (hd : 0 < d) (hlt : n < 2 ^ 53 * d) :
    n * 2 ^ rne64Scale n d < 2 ^ 53 * d ∧ (2 ^ 52 * d ≤ n * 2 ^ rne64Scale n d ∨ rne64Scale n d = 1074) := by
  obtain ⟨k, hscale, hlow, hhigh⟩ : ∃ k, rne64Scale n d = min k 1074 ∧ 2 ^ 52 * d ≤ n * 2 ^ k ∧ n * 2 ^ k < 2 ^ 53 * d := by
    obtain ⟨hlow, hhigh⟩ | ⟨hshort, hlow, hhigh⟩ := scale_window hn hd hlt rfl
    · exact ⟨_, by rw [rne64Scale, if_pos hlow], hlow, hhigh⟩
    · exact ⟨_, by rw [rne64Scale, if_neg hshort.not_ge], hlow, hhigh⟩
  rw [hscale]
  exact window_min 1074 hlow hhigh

end Scale

section Value

/-- The value of a binary64 number (log 10). -/
def val64 (x : Binary64) : ℚ := x.man / 2 ^ x.scale

theorem val64_nonneg (x : Binary64) : 0 ≤ val64 x := by
  unfold val64
  positivity

/-- `floor64` is the floor of the value. -/
theorem floor64_eq_floor (x : Binary64) : floor64 x = ⌊val64 x⌋₊ := by
  have hfloor := Nat.floor_div_eq_div (K := ℚ) x.man (2 ^ x.scale)
  rw [Nat.cast_pow, Nat.cast_ofNat] at hfloor
  exact hfloor.symm

variable {n d : Nat}

theorem val64_rne64 (n d : Nat) :
    val64 (rne64 n d) = roundEven (n * 2 ^ rne64Scale n d) d / 2 ^ rne64Scale n d := rfl

theorem val64_rne64_zero (d : Nat) : val64 (rne64 0 d) = 0 := by
  rw [val64, rne64_zero_man, Nat.cast_zero, zero_div]

/-- A quotient with `k` binary places, as a quotient of the shifted numerator. -/
theorem shifted_quotient (n d k : Nat) : (n : ℚ) / d = ((n * 2 ^ k : Nat) : ℚ) / d / 2 ^ k := by
  rw [Nat.cast_mul, Nat.cast_pow, Nat.cast_ofNat]
  field_simp

/-- Distances at a scale are those of the shifted values. -/
theorem abs_sub_shifted (a b : ℚ) (k : Nat) : |a / 2 ^ k - b / 2 ^ k| = |a - b| / 2 ^ k := by
  rw [← sub_div, abs_div, abs_of_pos (show (0 : ℚ) < 2 ^ k by positivity)]

/-- Against a value with no more binary places, the rounding is nearest, ties to even. -/
theorem rne64_nearest_coarser (hd : 0 < d) {m k : Nat} (hk : k ≤ rne64Scale n d) :
    |(n : ℚ) / d - val64 (rne64 n d)| ≤ |(n : ℚ) / d - m / 2 ^ k| ∧
      (|(n : ℚ) / d - val64 (rne64 n d)| = |(n : ℚ) / d - m / 2 ^ k| → val64 (rne64 n d) ≠ m / 2 ^ k →
        (rne64 n d).man % 2 = 0) := by
  obtain ⟨j, hj⟩ := Nat.exists_eq_add_of_le hk
  have hshift : (m : ℚ) / 2 ^ k = ((m * 2 ^ j : Nat) : ℚ) / 2 ^ rne64Scale n d := by
    rw [hj, Nat.cast_mul, Nat.cast_pow, Nat.cast_ofNat, pow_add]
    field_simp
  have hpos : (0 : ℚ) < 2 ^ rne64Scale n d := by positivity
  obtain ⟨hle, htie⟩ := roundEven_le_abs (n := n * 2 ^ rne64Scale n d) hd (m * 2 ^ j)
  rw [hshift, val64_rne64, shifted_quotient n d (rne64Scale n d), abs_sub_shifted, abs_sub_shifted]
  refine ⟨div_le_div_of_nonneg_right hle hpos.le, fun heq hne => htie ?_ ?_⟩
  · exact (div_left_inj' hpos.ne').mp heq
  · rintro hsame
    rw [hsame] at hne
    exact hne rfl

/-- The error of the rounding is at most half a unit of the last place. -/
theorem abs_sub_val64_rne64_le (hd : 0 < d) : |(n : ℚ) / d - val64 (rne64 n d)| ≤ 1 / 2 / 2 ^ rne64Scale n d := by
  rw [val64_rne64, shifted_quotient n d (rne64Scale n d), abs_sub_shifted]
  exact div_le_div_of_nonneg_right (roundEven_nearest hd).1 (by positivity)

/-- Against a value with more binary places: it lies below the least value of 53 bits, which is no farther than the
rounding. -/
theorem rne64_nearer_than_finer (hn : 0 < n) (hd : 0 < d) (hlt : n < 2 ^ 53 * d) {m k : Nat} (hm : m < 2 ^ 53)
    (hk : rne64Scale n d < k) (hmax : k ≤ 1074) :
    |(n : ℚ) / d - val64 (rne64 n d)| < |(n : ℚ) / d - m / 2 ^ k| := by
  have hpos : (0 : ℚ) < d := by exact_mod_cast hd
  have hscale : (0 : ℚ) < 2 ^ rne64Scale n d := by positivity
  have hnormal : 2 ^ 52 * d ≤ n * 2 ^ rne64Scale n d := (rne64Scale_spec hn hd hlt).2.resolve_right (by omega)
  have hleast : (2 : ℚ) ^ 52 / 2 ^ rne64Scale n d ≤ n / d := by
    rw [div_le_div_iff₀ hscale hpos]
    exact_mod_cast hnormal
  have hbelow : (m : ℚ) / 2 ^ k < 2 ^ 52 / 2 ^ rne64Scale n d := by
    have hpow : (2 : ℚ) * 2 ^ rne64Scale n d ≤ 2 ^ k := by
      rw [← pow_succ']
      exact pow_le_pow_right₀ one_le_two hk
    have hm' : (m : ℚ) < 2 * 2 ^ 52 := by exact_mod_cast hm
    rw [div_lt_div_iff₀ (by positivity) hscale]
    nlinarith
  obtain ⟨hle, _⟩ := rne64_nearest_coarser (n := n) (m := 2 ^ 52) hd le_rfl
  rw [Nat.cast_pow, Nat.cast_ofNat, abs_of_nonneg (sub_nonneg.mpr hleast)] at hle
  rw [abs_of_pos (by linarith : (0 : ℚ) < n / d - m / 2 ^ k)]
  linarith

theorem rne64_man_le (hd : 0 < d) (hlt : n < 2 ^ 53 * d) : (rne64 n d).man ≤ 2 ^ 53 := by
  obtain rfl | hn := n.eq_zero_or_pos
  · rw [rne64_zero_man]
    exact Nat.zero_le _
  · exact roundEven_le_of_le_mul hd (rne64Scale_spec hn hd hlt).1.le

/-- Settles O36: against fewer binary places by the rounding to a natural number, against more by the 53 bits. -/
theorem roundsToNearestEven : Obligations.RoundsToNearestEven := by
  intro n d hd hlt
  refine ⟨rne64_man_le hd hlt, rne64Scale_le n d, fun m k hm hk => ?_⟩
  obtain hcoarse | hfine := le_or_gt k (rne64Scale n d)
  · exact rne64_nearest_coarser hd hcoarse
  obtain rfl | hn := n.eq_zero_or_pos
  · have hzero := val64_rne64_zero d
    rw [val64] at hzero
    rw [hzero, Nat.cast_zero, zero_div, sub_zero, abs_zero]
    exact ⟨abs_nonneg _, fun _ _ => by rw [rne64_zero_man]⟩
  · have hlt' := rne64_nearer_than_finer hn hd hlt hm hfine hk
    exact ⟨hlt'.le, fun heq => absurd heq hlt'.ne⟩

end Value

end Sys2Proof.Machine
end

