-- ==== Sys2Proof/Proofs/Scaler.lean ====
section
/-! PROOFS. The scaler and the ramp scaler (41_scale_and_transmit.md R121, R123 to R125), from the rounding of binary64: it is
monotone, exact on representable values, and close to the quotient; then the fixed colours (42_fixed_colors.md R140). -/

namespace Sys2Proof.Machine

section Rounding

variable {n d n' d' : Nat}

/-- A quotient below `2 ^ 53`, in naturals. -/
theorem lt_mul_of_quotient_lt (hd : 0 < d) (h : (n : ℚ) / d < 2 ^ 53) : n < 2 ^ 53 * d := by
  have hpos : (0 : ℚ) < d := by exact_mod_cast hd
  exact_mod_cast (div_lt_iff₀ hpos).mp h

/-- A smaller quotient keeps at least as many binary places. -/
theorem rne64Scale_anti (hn : 0 < n) (hn' : 0 < n') (hd : 0 < d) (hd' : 0 < d') (h : (n : ℚ) / d ≤ n' / d')
    (hlt' : n' < 2 ^ 53 * d') (hlt : n < 2 ^ 53 * d) : rne64Scale n' d' ≤ rne64Scale n d := by
  have hpos : (0 : ℚ) < d := by exact_mod_cast hd
  have hpos' : (0 : ℚ) < d' := by exact_mod_cast hd'
  have hle := rne64Scale_le n' d'
  obtain ⟨hhigh', _⟩ := rne64Scale_spec hn' hd' hlt'
  obtain ⟨_, hlow⟩ := rne64Scale_spec hn hd hlt
  by_contra hgt
  have hlow' : (2 : ℚ) ^ 52 / 2 ^ rne64Scale n d ≤ n / d := by
    rw [div_le_div_iff₀ (by positivity) hpos]
    exact_mod_cast hlow.resolve_right (by omega)
  have hhigh'' : (n' : ℚ) / d' < 2 ^ 53 / 2 ^ rne64Scale n' d' := by
    rw [div_lt_div_iff₀ hpos' (by positivity)]
    exact_mod_cast hhigh'
  have hpow : (2 : ℚ) ^ 53 / 2 ^ rne64Scale n' d' ≤ 2 ^ 52 / 2 ^ rne64Scale n d := by
    rw [div_le_div_iff₀ (by positivity) (by positivity), pow_succ, mul_assoc, ← pow_succ']
    exact mul_le_mul_of_nonneg_left (pow_le_pow_right₀ one_le_two (by omega)) (by positivity)
  linarith

/-- The rounding is monotone. -/
theorem val64_rne64_mono (hd : 0 < d) (hd' : 0 < d') (h : (n : ℚ) / d ≤ n' / d') (hlt' : (n' : ℚ) / d' < 2 ^ 53) :
    val64 (rne64 n d) ≤ val64 (rne64 n' d') := by
  obtain rfl | hn := n.eq_zero_or_pos
  · rw [val64_rne64_zero]
    exact val64_nonneg _
  have hpos : (0 : ℚ) < d := by exact_mod_cast hd
  have hn' : 0 < n' := by
    have hquot : (0 : ℚ) < n / d := by positivity
    refine Nat.pos_of_ne_zero fun hzero => ?_
    rw [hzero, Nat.cast_zero, zero_div] at h
    linarith
  have hnat := lt_mul_of_quotient_lt hd (h.trans_lt hlt')
  have hnat' := lt_mul_of_quotient_lt hd' hlt'
  rw [val64_rne64, val64_rne64]
  obtain hlt | heq := (rne64Scale_anti hn hn' hd hd' h hnat' hnat).lt_or_eq
  · have hman : roundEven (n * 2 ^ rne64Scale n d) d ≤ 2 ^ 53 := rne64_man_le hd hnat
    have hman' : 2 ^ 52 ≤ roundEven (n' * 2 ^ rne64Scale n' d') d' := by
      have hle := rne64Scale_le n d
      exact le_roundEven_of_mul_le hd' ((rne64Scale_spec hn' hd' hnat').2.resolve_right (by omega))
    have hpow : (2 : ℚ) * 2 ^ rne64Scale n' d' ≤ 2 ^ rne64Scale n d := by
      rw [← pow_succ']
      exact pow_le_pow_right₀ one_le_two hlt
    have hmanQ : (roundEven (n * 2 ^ rne64Scale n d) d : ℚ) ≤ 2 * 2 ^ 52 := by
      rw [← pow_succ']
      exact_mod_cast hman
    have hmanQ' : (2 : ℚ) ^ 52 ≤ roundEven (n' * 2 ^ rne64Scale n' d') d' := by exact_mod_cast hman'
    rw [div_le_div_iff₀ (by positivity) (by positivity)]
    calc
      _ ≤ 2 * 2 ^ 52 * (2 : ℚ) ^ rne64Scale n' d' := by gcongr
      _ = 2 ^ 52 * (2 * 2 ^ rne64Scale n' d') := by ring
      _ ≤ _ := by gcongr
  · rw [heq]
    have hshift : ((n * 2 ^ rne64Scale n d : Nat) : ℚ) / d ≤ ((n' * 2 ^ rne64Scale n d : Nat) : ℚ) / d' := by
      rw [Nat.cast_mul, Nat.cast_mul, mul_div_right_comm, mul_div_right_comm]
      gcongr
    have hman := roundEven_mono hd hd' hshift
    gcongr

/-- A value of 53 bits above the least exponent is its own rounding. -/
theorem val64_rne64_of_representable (hd : 0 < d) {m k : Nat} (hm : m < 2 ^ 53) (hk : k ≤ 1074)
    (h : (n : ℚ) / d = m / 2 ^ k) : val64 (rne64 n d) = n / d := by
  have hlt : (n : ℚ) / d < 2 ^ 53 := by
    rw [h]
    exact (div_le_self (Nat.cast_nonneg m) (one_le_pow₀ one_le_two)).trans_lt (by exact_mod_cast hm)
  obtain ⟨_, _, hnearest⟩ := roundsToNearestEven n d hd (lt_mul_of_quotient_lt hd hlt)
  have hle := (hnearest m k hm hk).1
  rw [← h, sub_self, abs_zero] at hle
  exact (sub_eq_zero.mp (abs_nonpos_iff.mp hle)).symm

theorem val64_rne64_natCast {m : Nat} (hd : 0 < d) (hm : m < 2 ^ 53) (h : (n : ℚ) / d = m) : val64 (rne64 n d) = m := by
  rw [val64_rne64_of_representable (m := m) (k := 0) hd hm (Nat.zero_le _) (by rw [h, pow_zero, div_one]), h]

/-- The rounding of a quotient up to `2 ^ e` is within half of the last of its 53 places. -/
theorem abs_sub_val64_le {e : Nat} (hd : 0 < d) (he : e ≤ 52) (h : (n : ℚ) / d ≤ 2 ^ e) :
    |(n : ℚ) / d - val64 (rne64 n d)| ≤ 2 ^ e / 2 ^ 53 := by
  obtain rfl | hn := n.eq_zero_or_pos
  · rw [val64_rne64_zero, Nat.cast_zero, zero_div, sub_zero, abs_zero]
    positivity
  have hpos : (0 : ℚ) < d := by exact_mod_cast hd
  have hbound : (2 : ℚ) ^ e < 2 ^ 53 := pow_lt_pow_right₀ one_lt_two (by omega)
  obtain ⟨_, hlow⟩ := rne64Scale_spec hn hd (lt_mul_of_quotient_lt hd (h.trans_lt hbound))
  have hplaces : 52 ≤ e + rne64Scale n d := by
    by_contra hfew
    have hnormal : (2 : ℚ) ^ 52 / 2 ^ rne64Scale n d ≤ n / d := by
      rw [div_le_div_iff₀ (by positivity) hpos]
      exact_mod_cast hlow.resolve_right (by omega)
    have hpow : (2 : ℚ) ^ e < 2 ^ 52 / 2 ^ rne64Scale n d := by
      rw [lt_div_iff₀ (by positivity), ← pow_add]
      exact pow_lt_pow_right₀ one_lt_two (by omega)
    linarith
  refine (abs_sub_val64_rne64_le hd).trans ?_
  rw [div_div, ← pow_succ', div_le_div_iff₀ (by positivity) (by positivity), one_mul, ← pow_add]
  exact pow_le_pow_right₀ one_le_two (by omega)

end Rounding

section Products

theorem natMul64_quotient (c : Nat) (x : Binary64) : ((c * x.man : Nat) : ℚ) / (2 ^ x.scale : Nat) = c * val64 x := by
  rw [val64, Nat.cast_mul, Nat.cast_pow, Nat.cast_ofNat, mul_div_assoc]

theorem mul64_quotient (x y : Binary64) :
    ((x.man * y.man : Nat) : ℚ) / (2 ^ (x.scale + y.scale) : Nat) = val64 x * val64 y := by
  rw [val64, val64, Nat.cast_mul, Nat.cast_pow, Nat.cast_ofNat, pow_add, div_mul_div_comm]

variable {c c' : Nat} {x x' y : Binary64}

theorem val64_natMul64_mono (hc : c ≤ c') (hx : val64 x ≤ val64 x') (hlt : c' * val64 x' < 2 ^ 53) :
    val64 (natMul64 c x) ≤ val64 (natMul64 c' x') := by
  refine val64_rne64_mono (by positivity) (by positivity) ?_ (by rwa [natMul64_quotient])
  rw [natMul64_quotient, natMul64_quotient]
  exact mul_le_mul (by exact_mod_cast hc) hx (val64_nonneg x) (Nat.cast_nonneg c')

/-- The product with a value depends on the value alone. -/
theorem val64_natMul64_congr (hx : val64 x = val64 x') (hlt : c * val64 x' < 2 ^ 53) :
    val64 (natMul64 c x) = val64 (natMul64 c x') :=
  le_antisymm (val64_natMul64_mono le_rfl hx.le hlt) (val64_natMul64_mono le_rfl hx.ge (hx ▸ hlt))

theorem val64_natMul64_of_eq_one (hc : c < 2 ^ 53) (hx : val64 x = 1) : val64 (natMul64 c x) = c :=
  val64_rne64_natCast (by positivity) hc (by rw [natMul64_quotient, hx, mul_one])

/-- A product with a value up to 1 stays a bounded factor. -/
theorem natCast_mul_val64_lt (hc : c < 2 ^ 53) (hx : val64 x ≤ 1) : (c : ℚ) * val64 x < 2 ^ 53 :=
  (mul_le_of_le_one_right (Nat.cast_nonneg c) hx).trans_lt (by exact_mod_cast hc)

theorem val64_one : val64 (rne64 1 1) = 1 := val64_rne64_natCast one_pos (by decide) (by norm_num)

theorem val64_natMul64_le (hc : c < 2 ^ 53) (hx : val64 x ≤ 1) : val64 (natMul64 c x) ≤ c := by
  rw [← val64_natMul64_of_eq_one hc val64_one]
  refine val64_natMul64_mono le_rfl (by rwa [val64_one]) ?_
  exact natCast_mul_val64_lt hc val64_one.le

theorem val64_mul64_le_one (hx : val64 x ≤ 1) (hy : val64 y ≤ 1) : val64 (mul64 x y) ≤ 1 := by
  rw [← val64_one]
  refine val64_rne64_mono (by positivity) one_pos ?_ (by norm_num)
  rw [mul64_quotient, Nat.cast_one, div_one]
  exact mul_le_one₀ hx (val64_nonneg y) hy

end Products

section Fractions

variable {n d : Nat}

theorem quotient_le_one (h : n ≤ d) : (n : ℚ) / d ≤ 1 :=
  div_le_one_of_le₀ (by exact_mod_cast h) (Nat.cast_nonneg d)

theorem val64_rne64_self (hd : 0 < d) : val64 (rne64 d d) = 1 := by
  have hpos : (0 : ℚ) < d := by exact_mod_cast hd
  exact val64_rne64_natCast hd (by decide) (by rw [div_self hpos.ne', Nat.cast_one])

theorem val64_rne64_le_one (hd : 0 < d) (h : n ≤ d) : val64 (rne64 n d) ≤ 1 := by
  rw [← val64_one]
  refine val64_rne64_mono hd one_pos ?_ (by norm_num)
  rw [Nat.cast_one, div_one]
  exact quotient_le_one h

/-- A rounded fraction up to 1 has 53 bits. -/
theorem val64_rne64_representable (hd : 0 < d) (h : n ≤ d) :
    ∃ m k : Nat, m < 2 ^ 53 ∧ k ≤ 1074 ∧ val64 (rne64 n d) = m / 2 ^ k := by
  have hone := val64_rne64_le_one hd h
  have hscale := rne64Scale_le n d
  obtain hlt | heq := (rne64_man_le hd (by omega : n < 2 ^ 53 * d)).lt_or_eq
  · exact ⟨_, _, hlt, hscale, rfl⟩
  · have hval : val64 (rne64 n d) = (2 : ℚ) ^ 53 / 2 ^ rne64Scale n d := by
      rw [val64, heq, Nat.cast_pow, Nat.cast_ofNat]
      rfl
    cases hk : rne64Scale n d with
    | zero =>
      rw [hval, hk] at hone
      norm_num at hone
    | succ k =>
      refine ⟨2 ^ 52, k, by norm_num, by omega, ?_⟩
      rw [hval, hk, pow_succ 2 k, (by norm_num : (2 : ℚ) ^ 53 = 2 ^ 52 * 2), mul_div_mul_right _ _ two_ne_zero,
        Nat.cast_pow, Nat.cast_ofNat]

/-- A product of a rounded fraction and 1 is that fraction. -/
theorem val64_mul64_of_eq_one {y : Binary64} (hd : 0 < d) (h : n ≤ d) (hy : val64 y = 1) :
    val64 (mul64 (rne64 n d) y) = val64 (rne64 n d) := by
  obtain ⟨m, k, hm, hk, hval⟩ := val64_rne64_representable hd h
  have hquot := mul64_quotient (rne64 n d) y
  rw [hy, mul_one] at hquot
  rw [mul64, val64_rne64_of_representable (by positivity) hm hk (hquot.trans hval), hquot]

end Fractions

section Laws

variable {c c' p p' : Nat}

theorem scaleNat_binary64 (c p : Nat) : scaleNat .binary64 c p = ⌊val64 (natMul64 c (rne64 p 100))⌋₊ := floor64_eq_floor _

theorem rampScaleNat_binary64 (c pm i n : Nat) :
    rampScaleNat .binary64 c pm i n = ⌊val64 (natMul64 c (mul64 (rne64 pm 100) (rne64 i n)))⌋₊ := floor64_eq_floor _

/-- A channel scaled by a value up to 1 does not grow. -/
theorem floor_natMul64_le {x : Binary64} (hc : c ≤ 255) (hx : val64 x ≤ 1) : ⌊val64 (natMul64 c x)⌋₊ ≤ c :=
  Nat.floor_le_of_le (val64_natMul64_le (by omega) hx)

theorem scaleNat_le (a : ScaleArith) (hc : c ≤ 255) (hp : p ≤ 100) : scaleNat a c p ≤ c := by
  cases a with
  | exact => exact Nat.div_le_of_le_mul (by rw [Nat.mul_comm]; exact Nat.mul_le_mul_right c hp)
  | binary64 =>
    rw [scaleNat_binary64]
    exact floor_natMul64_le hc (val64_rne64_le_one (by decide) hp)

theorem scaleNat_percent_zero (a : ScaleArith) (c : Nat) : scaleNat a c 0 = 0 := by
  cases a with
  | exact => rw [scaleNat, Nat.mul_zero, Nat.zero_div]
  | binary64 => exact floor64_natMul64_of_man_zero c (rne64_zero_man 100)

theorem scaleNat_percent_hundred (a : ScaleArith) (hc : c ≤ 255) : scaleNat a c 100 = c := by
  cases a with
  | exact => exact Nat.mul_div_cancel c (by decide)
  | binary64 =>
    rw [scaleNat_binary64, val64_natMul64_of_eq_one (by omega) (val64_rne64_self (by decide)), Nat.floor_natCast]

/-- The scaler is monotone in the channel and in the percent. -/
theorem scaleNat_mono (a : ScaleArith) (hcc : c ≤ c') (hc : c' ≤ 255) (hpp : p ≤ p') (hp : p' ≤ 100) :
    scaleNat a c p ≤ scaleNat a c' p' := by
  cases a with
  | exact => exact Nat.div_le_div_right (Nat.mul_le_mul hcc hpp)
  | binary64 =>
    rw [scaleNat_binary64, scaleNat_binary64]
    have hone := val64_rne64_le_one (by decide : 0 < 100) hp
    have hquot := quotient_le_one hp
    refine Nat.floor_le_floor (val64_natMul64_mono hcc (val64_rne64_mono (by decide) (by decide) ?_ ?_) ?_)
    · gcongr
    · exact hquot.trans_lt (by norm_num)
    · exact natCast_mul_val64_lt (by omega) hone

variable {pm i n : Nat}

theorem rampScaleNat_le (a : ScaleArith) (hc : c ≤ 255) (hpm : pm ≤ 100) (hn : 1 ≤ n) (hi : i ≤ n) :
    rampScaleNat a c pm i n ≤ c := by
  cases a with
  | exact =>
    refine Nat.div_le_of_le_mul ?_
    calc
      c * pm * i ≤ c * 100 * n := by gcongr
      _ = 100 * n * c := by ring
  | binary64 =>
    rw [rampScaleNat_binary64]
    exact floor_natMul64_le hc (val64_mul64_le_one (val64_rne64_le_one (by decide) hpm) (val64_rne64_le_one hn hi))

/-- At the top of the ramp the ramp scaler is the scaler at the ceiling. -/
theorem rampScaleNat_top (a : ScaleArith) (hc : c ≤ 255) (hpm : pm ≤ 100) (hn : 1 ≤ n) :
    rampScaleNat a c pm n n = scaleNat a c pm := by
  cases a with
  | exact => exact Nat.mul_div_mul_right _ _ hn
  | binary64 =>
    rw [rampScaleNat_binary64, scaleNat_binary64]
    refine congrArg Nat.floor (val64_natMul64_congr ?_ ?_)
    · exact val64_mul64_of_eq_one (by decide) hpm (val64_rne64_self hn)
    · exact natCast_mul_val64_lt (by omega) (val64_rne64_le_one (by decide) hpm)

/-- Settles O33: law by law, each in both modes. -/
theorem scalerLaws : Obligations.ScalerLaws := fun a =>
  ⟨fun c p hc hp => ⟨scaleNat_le a hc hp, scaleNat_percent_zero a c, scaleNat_percent_hundred a hc, scaleNat_zero a p⟩,
    fun _ _ _ hcc hc hp => scaleNat_mono a hcc hc le_rfl hp,
    fun _ _ _ hc hpp hp => scaleNat_mono a le_rfl hc hpp hp,
    fun c pm _ n hc _ hpm hn _ hi =>
      ⟨rampScaleNat_le a hc hpm hn hi, rampScaleNat_index_zero a c pm n, rampScaleNat_top a hc hpm hn⟩⟩

end Laws

section Exact

/-- Settles O32: the byte cuts nothing, and the floor of a quotient of naturals is their division. -/
theorem exactScalerIsFloor : Obligations.ExactScalerIsFloor := by
  refine ⟨fun c p hp => ?scale, fun c pm i n hpm hn hi => ?ramp⟩
  case scale =>
    have hle := scaleNat_le .exact (Nat.le_of_lt_succ c.isLt) hp
    have hbyte : (scale .exact c p).toNat = c.toNat * p.toNat / 100 := Nat.mod_eq_of_lt (hle.trans_lt c.isLt)
    have hfloor := Rat.floor_natCast_div_natCast (c.toNat * p.toNat) 100
    rw [hbyte, ← mul_div_assoc]
    push_cast at hfloor ⊢
    exact hfloor.symm
  case ramp =>
    have hle := rampScaleNat_le .exact (Nat.le_of_lt_succ c.isLt) hpm hn hi
    have hbyte : (rampScale .exact c pm i n).toNat = c.toNat * pm.toNat * i.toNat / (100 * n.toNat) :=
      Nat.mod_eq_of_lt (hle.trans_lt c.isLt)
    have hfloor := Rat.floor_natCast_div_natCast (c.toNat * pm.toNat * i.toNat) (100 * n.toNat)
    rw [hbyte, div_mul_div_comm, ← mul_div_assoc, ← mul_assoc]
    push_cast at hfloor ⊢
    exact hfloor.symm

end Exact

section Modes

/-- The floor of a value nearer to a quotient than a unit of its denominator is the floor of the quotient, or one less where
the quotient is whole. -/
theorem floor_near_quotient {a b : Nat} {w : ℚ} (hb : 0 < b) (hw : 0 ≤ w) (h : |w - a / b| < 1 / b) :
    ⌊w⌋₊ = a / b ∨ ⌊w⌋₊ + 1 = a / b ∧ a % b = 0 := by
  have hpos : (0 : ℚ) < b := by exact_mod_cast hb
  obtain ⟨hlow, hhigh⟩ := abs_lt.mp h
  have hdiv := Nat.div_add_mod' a b
  have hmod := Nat.mod_lt a hb
  have hbelow : ⌊w⌋₊ < a / b + 1 := by
    rw [Nat.floor_lt hw]
    have hnext : ((a + 1 : Nat) : ℚ) / b ≤ (a / b + 1 : Nat) := by
      rw [div_le_iff₀ hpos]
      exact_mod_cast (by rw [Nat.add_mul]; omega : a + 1 ≤ (a / b + 1) * b)
    rw [Nat.cast_succ, add_div] at hnext
    linarith
  have habove : a ≤ (⌊w⌋₊ + 1) * b := by
    have hlt : (a : ℚ) < (⌊w⌋₊ + 1 : Nat) * b + 1 := by
      have hfloor := Nat.lt_floor_add_one w
      have hquot : (a : ℚ) / b < w + 1 / b := by linarith
      rw [div_lt_iff₀ hpos, add_mul, one_div_mul_cancel hpos.ne'] at hquot
      push_cast
      nlinarith
    exact Nat.lt_succ_iff.mp (by exact_mod_cast hlt)
  have hquot : a / b ≤ ⌊w⌋₊ + 1 := Nat.div_le_of_le_mul (by rwa [Nat.mul_comm] at habove)
  obtain heq | hone : a / b = ⌊w⌋₊ ∨ a / b = ⌊w⌋₊ + 1 := by omega
  · exact .inl heq.symm
  · refine .inr ⟨hone.symm, ?_⟩
    rw [hone] at hdiv
    omega

/-- The rounded product of a channel and a value near a fraction up to 1 is near the product with the fraction. -/
theorem natMul64_near {c : Nat} {x : Binary64} {q e : ℚ} (hc : c ≤ 255) (hx : val64 x ≤ 1) (h : |val64 x - q| ≤ e) :
    |val64 (natMul64 c x) - c * q| ≤ 255 * e + 2 ^ 8 / 2 ^ 53 := by
  have hcQ : (c : ℚ) ≤ 255 := by exact_mod_cast hc
  have hround : |c * val64 x - val64 (natMul64 c x)| ≤ 2 ^ 8 / 2 ^ 53 := by
    rw [← natMul64_quotient]
    refine abs_sub_val64_le (by positivity) (by decide) ?_
    rw [natMul64_quotient]
    exact (mul_le_of_le_one_right (Nat.cast_nonneg c) hx).trans (hcQ.trans (by norm_num))
  have hproduct : |c * val64 x - c * q| ≤ 255 * e := by
    rw [← mul_sub, abs_mul, Nat.abs_cast]
    exact mul_le_mul hcQ h (abs_nonneg _) (by norm_num)
  rw [abs_sub_comm] at hround
  have htriangle := abs_sub_le (val64 (natMul64 c x)) (c * val64 x) (c * q)
  linarith

/-- The rounding of a fraction up to 1. -/
theorem val64_rne64_near {n d : Nat} (hd : 0 < d) (h : n ≤ d) : |val64 (rne64 n d) - n / d| ≤ 1 / 2 ^ 53 := by
  have herr := abs_sub_val64_le (e := 0) hd (by decide) ((quotient_le_one h).trans_eq (pow_zero 2).symm)
  rwa [pow_zero, abs_sub_comm] at herr

/-- In both modes the scaled channel is the same, or BINARY64 is one lower at a whole quotient (R125). -/
theorem scaleNat_modes {c p : Nat} (hc : c ≤ 255) (hp : p ≤ 100) :
    scaleNat .binary64 c p = scaleNat .exact c p ∨
      scaleNat .binary64 c p + 1 = scaleNat .exact c p ∧ c * p % 100 = 0 := by
  have hnear := natMul64_near hc (val64_rne64_le_one (by decide) hp) (val64_rne64_near (by decide) hp)
  rw [scaleNat_binary64]
  refine floor_near_quotient (by decide) (val64_nonneg _) (lt_of_le_of_lt ?_ (by norm_num : 511 / 2 ^ 53 < 1 / (100 : ℚ)))
  rw [Nat.cast_mul, mul_div_assoc]
  exact hnear.trans_eq (by norm_num)

/-- The rounded product of two rounded fractions up to 1. -/
theorem mul64_near {a b n d : Nat} (hb : 0 < b) (hab : a ≤ b) (hd : 0 < d) (hn : n ≤ d) :
    |val64 (mul64 (rne64 a b) (rne64 n d)) - a / b * (n / d)| ≤ 3 / 2 ^ 53 := by
  have hx1 := val64_rne64_le_one hb hab
  have hy1 := val64_rne64_le_one hd hn
  have hx := val64_rne64_near hb hab
  have hy := val64_rne64_near hd hn
  have hround : |val64 (rne64 a b) * val64 (rne64 n d) - val64 (mul64 (rne64 a b) (rne64 n d))| ≤ 1 / 2 ^ 53 := by
    have herr := abs_sub_val64_le (e := 0) (n := (rne64 a b).man * (rne64 n d).man)
      (d := 2 ^ ((rne64 a b).scale + (rne64 n d).scale)) (by positivity) (by decide)
      (by rw [mul64_quotient, pow_zero]; exact mul_le_one₀ hx1 (val64_nonneg _) hy1)
    rwa [mul64_quotient, pow_zero] at herr
  have hleft : |(val64 (rne64 a b) - a / b) * val64 (rne64 n d)| ≤ 1 / 2 ^ 53 * 1 := by
    rw [abs_mul, abs_of_nonneg (val64_nonneg (rne64 n d))]
    exact mul_le_mul hx hy1 (val64_nonneg _) (by positivity)
  have hright : |(a : ℚ) / b * (val64 (rne64 n d) - n / d)| ≤ 1 * (1 / 2 ^ 53) := by
    rw [abs_mul, abs_of_nonneg (by positivity : (0 : ℚ) ≤ a / b)]
    exact mul_le_mul (quotient_le_one hab) hy (abs_nonneg _) zero_le_one
  have hproduct : val64 (rne64 a b) * val64 (rne64 n d) - a / b * (n / d) =
      (val64 (rne64 a b) - a / b) * val64 (rne64 n d) + a / b * (val64 (rne64 n d) - n / d) := by ring
  have htriangle := abs_sub_le (val64 (mul64 (rne64 a b) (rne64 n d))) (val64 (rne64 a b) * val64 (rne64 n d))
    (a / b * (n / d))
  have hsum := abs_add_le ((val64 (rne64 a b) - a / b) * val64 (rne64 n d)) (a / b * (val64 (rne64 n d) - n / d))
  rw [abs_sub_comm] at hround
  rw [hproduct] at htriangle
  linarith

/-- Settles O35: three roundings are too few to reach another multiple of `1 / (100 n)`. -/
theorem rampModesDifferByOne : Obligations.RampModesDifferByOne := by
  intro c pm i n hc _ hpm hn hmax hi
  have hpos : (0 : ℚ) < n := by exact_mod_cast hn
  have hmaxQ : (n : ℚ) ≤ 65535 := by exact_mod_cast hmax
  have hone := val64_mul64_le_one (val64_rne64_le_one (by decide : 0 < 100) hpm) (val64_rne64_le_one hn hi)
  have hnear := natMul64_near hc hone (mul64_near (by decide) hpm hn hi)
  have hunit : 255 * (3 / 2 ^ 53) + 2 ^ 8 / 2 ^ 53 < 1 / ((100 * n : Nat) : ℚ) := by
    rw [lt_div_iff₀ (by positivity), Nat.cast_mul]
    push_cast
    linarith
  have hquot : ((c * pm * i : Nat) : ℚ) / (100 * n : Nat) = c * (pm / 100 * (i / n)) := by
    push_cast
    ring
  rw [rampScaleNat_binary64]
  exact floor_near_quotient (by positivity) (val64_nonneg _) (by rw [hquot]; exact hnear.trans_lt hunit)

/-- The percent's fraction lies below it once rounded; `percent_le_val64` says what it means otherwise. -/
def roundsDown (p : Nat) : Bool := 100 * (rne64 p 100).man < p * 2 ^ (rne64 p 100).scale

theorem percent_le_val64 {p : Nat} (h : roundsDown p = false) : (p : ℚ) / 100 ≤ val64 (rne64 p 100) := by
  rw [val64, div_le_div_iff₀ (by norm_num) (by positivity), mul_comm ((rne64 p 100).man : ℚ)]
  exact_mod_cast Nat.le_of_not_lt (of_decide_eq_false h)

/-- A percent that is not rounded down costs no whole quotient. -/
theorem scaleNat_le_binary64_of_not_rounded_down {c p : Nat} (hc : c ≤ 255) (hp : p ≤ 100) (hwhole : c * p % 100 = 0)
    (hup : roundsDown p = false) : scaleNat .exact c p ≤ scaleNat .binary64 c p := by
  have hpercent := percent_le_val64 hup
  have hquot : ((c * p / 100 : Nat) : ℚ) = c * (p / 100) := by
    rw [Nat.cast_div (Nat.dvd_of_mod_eq_zero hwhole) (by norm_num)]
    push_cast
    ring
  have hexact : val64 (rne64 (c * p / 100) 1) = (c * p / 100 : Nat) :=
    val64_rne64_natCast one_pos (by have := Nat.mul_le_mul hc hp; omega) (by rw [Nat.cast_one, div_one])
  have hle : val64 (rne64 (c * p / 100) 1) ≤ val64 (natMul64 c (rne64 p 100)) := by
    refine val64_rne64_mono one_pos (by positivity) ?_ ?_
    · rw [natMul64_quotient, Nat.cast_one, div_one, hquot]
      gcongr
    · rw [natMul64_quotient]
      exact natCast_mul_val64_lt (by omega) (val64_rne64_le_one (by decide) hp)
  rw [scaleNat_binary64, scaleNat]
  exact Nat.le_floor (hexact ▸ hle)

/-- The table of 41_scale_and_transmit.md R125. -/
def lowerPairs : List (Nat × Nat) :=
  [(29, 100), (29, 200), (35, 180), (57, 100), (57, 200), (58, 50), (58, 100), (58, 200), (70, 90), (70, 170), (70, 180),
    (82, 150)]

/-- At each pair of the table BINARY64 is one lower. -/
theorem scaleNat_lowerPairs : ∀ x ∈ lowerPairs, scaleNat .exact x.2 x.1 = scaleNat .binary64 x.2 x.1 + 1 := by
  decide +kernel

/-- The channels with a whole quotient at `p` are the multiples of `100 / gcd p 100`. -/
theorem exists_multiple_of_whole {c p : Nat} (hc : c ≤ 255) (hwhole : c * p % 100 = 0) :
    ∃ j < 255 / (100 / p.gcd 100) + 1, c = j * (100 / p.gcd 100) := by
  obtain ⟨p', step, hcoprime, hp, hstep⟩ := Nat.exists_coprime p 100
  have hgcd : 0 < p.gcd 100 := Nat.gcd_pos_of_pos_right p (by decide)
  have hdiv : 100 / p.gcd 100 = step := Nat.div_eq_of_eq_mul_left hgcd hstep
  have hdvd : step ∣ c * p' := by
    have hscaled : step * p.gcd 100 ∣ c * p' * p.gcd 100 := by
      rw [← hstep, Nat.mul_assoc, ← hp]
      exact Nat.dvd_of_mod_eq_zero hwhole
    exact Nat.dvd_of_mul_dvd_mul_right hgcd hscaled
  obtain ⟨j, hj⟩ := hcoprime.symm.dvd_of_dvd_mul_right hdvd
  have hpos : 0 < step := Nat.pos_of_ne_zero fun hzero => by simp [hzero] at hstep
  refine ⟨j, Nat.lt_succ_of_le ?_, by rw [hj, hdiv, Nat.mul_comm]⟩
  rw [hdiv, Nat.le_div_iff_mul_le hpos, Nat.mul_comm, ← hj]
  exact hc

/-- At the percents that are rounded down, the whole quotients outside the table are kept: a computation. -/
theorem scaleNat_modes_of_rounded_down : ∀ p ∈ (List.range 101).filter roundsDown,
    ∀ j < 255 / (100 / p.gcd 100) + 1, (p, j * (100 / p.gcd 100)) ∈ lowerPairs ∨
      scaleNat .exact (j * (100 / p.gcd 100)) p = scaleNat .binary64 (j * (100 / p.gcd 100)) p := by
  decide +kernel

theorem scaleNat_modes_outside_table {c p : Nat} (hc : c ≤ 255) (hp : p ≤ 100) (h : (p, c) ∉ lowerPairs) :
    scaleNat .exact c p = scaleNat .binary64 c p := by
  obtain heq | ⟨hlower, hwhole⟩ := scaleNat_modes hc hp
  · exact heq.symm
  · cases hdown : roundsDown p with
    | true =>
      obtain ⟨j, hj, rfl⟩ := exists_multiple_of_whole hc hwhole
      have hmem : p ∈ (List.range 101).filter roundsDown :=
        List.mem_filter.mpr ⟨List.mem_range.mpr (Nat.lt_succ_of_le hp), hdown⟩
      exact (scaleNat_modes_of_rounded_down p hmem j hj).resolve_left h
    | false =>
      have hle := scaleNat_le_binary64_of_not_rounded_down hc hp hwhole hdown
      omega

/-- Settles O34: the table is computed, and outside it the modes agree. -/
theorem modesDifferAtTwelvePairs : Obligations.ModesDifferAtTwelvePairs := by
  intro c p hc hp
  split_ifs with h
  · exact scaleNat_lowerPairs (p, c) h
  · exact scaleNat_modes_outside_table hc hp h

end Modes

section FixedColours

/-- No pair of the table has a fixed colour's channel, so its value is the same in both modes (42_fixed_colors.md R140). -/
theorem scale_fixedChannel (a : ScaleArith) {p : BitVec 7} (hp : p.toNat ≤ 100) (k : Bool) :
    scale a (fixedChannel k) p = if k then BitVec.ofNat 8 (255 * p.toNat / 100) else 0#8 := by
  cases k with
  | false => exact scale_zero a p
  | true =>
    refine congrArg (BitVec.ofNat 8) ?_
    cases a with
    | exact => rfl
    | binary64 =>
      exact (scaleNat_modes_outside_table (c := 255) le_rfl hp (by simp [lowerPairs])).symm

/-- The triple a fixed colour transmits. -/
theorem scale3_fixedTriple (a : ScaleArith) {p : BitVec 7} (hp : p.toNat ≤ 100) (kr kg kb : Bool) :
    scale3 a (fixedTriple kr kg kb) p =
      ⟨if kr then BitVec.ofNat 8 (255 * p.toNat / 100) else 0#8, if kg then BitVec.ofNat 8 (255 * p.toNat / 100) else 0#8,
        if kb then BitVec.ofNat 8 (255 * p.toNat / 100) else 0#8⟩ := by
  simp only [scale3, fixedTriple, scale_fixedChannel a hp]

/-- Settles O25: the eight rows ask for the eight triples. -/
theorem fixedColoursTransmit : Obligations.FixedColoursTransmit := by
  intro s hidle hp
  have hfixed : ∀ (i : Instr) (kr kg kb : Bool), acceptedCommand i = some (.fixed kr kg kb) →
      exec i s = .next (enter .single 0#32
        ⟨if kr then BitVec.ofNat 8 (255 * s.brightP.toNat / 100) else 0#8,
          if kg then BitVec.ofNat 8 (255 * s.brightP.toNat / 100) else 0#8,
          if kb then BitVec.ofNat 8 (255 * s.brightP.toNat / 100) else 0#8⟩ s) := fun i kr kg kb hi => by
    rw [exec_of_acceptedCommand hi hidle, startCommand, startFixed, scale3_fixedTriple _ hp]
  exact ⟨hfixed .off false false false rfl, hfixed .blue false false true rfl, hfixed .green false true false rfl,
    hfixed .cyan false true true rfl, hfixed .red true false false rfl, hfixed .magenta true false true rfl,
    hfixed .yellow true true false rfl, hfixed .white true true true rfl⟩

end FixedColours

end Sys2Proof.Machine
end
